-- ==== Sys2Proof/Word.lean ====
section
/-! DEFINITION. The widths of spec/00_scope.md section 5: u8, u16, u32 and `bit`. -/

namespace Sys2Proof

/-- `u8`: a byte of a store, a port or a vector. -/
abbrev Byte := BitVec 8

/-- `u16`: a CPU memory address or an I/O address (R36, R37). -/
abbrev Addr := BitVec 16

/-- `u32`: a transaction word (R70). -/
abbrev Word := BitVec 32

/-- `bit`: a bank selector (R22, R23). -/
abbrev Bit := BitVec 1

end Sys2Proof
end

