-- ==== Sys2Proof/Config.lean ====
section
/-! DEFINITION. The implementation parameters of spec/00_scope.md rule R7: the constants the spec fixes, the
parameters a machine is built with, and the free values it leaves open. -/

namespace Sys2Proof

/-- The chained peripherals (R28, R209): counter/timer instance 1 and the serial controller. -/
inductive Device
  | ctc1
  | sio
  deriving DecidableEq, Repr

/-- NESTED_ACK_POLICY (R7, R143, R146). -/
inductive NestedAckPolicy
  | defaultVector
  | preemptHigher
  deriving DecidableEq, Repr

namespace Config

/-- WINDOW_HI, the last address of the overlay window, which begins at 0x0000 (R7, R53). -/
abbrev windowHi : Addr := 0x07FF#16

end Config

/-- BOOT_VECTOR, an address of the overlay window, as R7, R56 and R172 require. -/
structure BootVector where
  addr : Addr
  inWindow : addr ≤ Config.windowHi
  deriving DecidableEq, Repr

/-- The parameters R7 leaves to the machine's builder. No transaction writes them. -/
structure Params where
  /-- NESTED_ACK_POLICY. -/
  nestedAck : NestedAckPolicy
  /-- ROM_IMAGE as the host hands it over with POWERON, or its absence (R72, R170). -/
  romImage : Option (List Byte)
  /-- COMPANION_ROM, any length; an absent image is the empty one (R27, R170). -/
  companionImage : List Byte
  /-- DEFAULT_VECTOR. -/
  defaultVector : Byte
  /-- BOOT_VECTOR. -/
  bootVector : BootVector
  deriving DecidableEq, Repr

namespace Config

/-- CHAIN_LEN (R28). -/
abbrev chainLen : Nat := 2

/-- CHAIN, highest priority first (R28, `90_conflicts.md` C4). -/
def chain : Vector Device chainLen := #v[.ctc1, .sio]

/-- The bytes of the overlay window, the least ROM_SIZE (R7, R25). -/
abbrev windowBytes : Nat := 0x800

/-- MEM_ADDR_BITS as a count of addresses (R36). -/
abbrev memBytes : Nat := 0x10000

/-- What an address of the RAM image that no write has reached reads as: the zero POWERON
establishes (R26). -/
abbrev ramFill : Byte := 0x00#8

/-- The port of BD (R120, R124). -/
abbrev bankSelectPort : Byte := 0x1A#8

/-- The byte of the `n`-th draw: an IORD of an unmapped port or of port 0x1A (R123, R125). Free value,
assumption log 7. -/
opaque draw : Nat → Byte

/-- The device oracle's `device_read(dev, off)` at the `n`-th free input (R121). Free value, assumption
log 8. -/
opaque deviceRead : Nat → Device → BitVec 2 → Byte

/-- The device oracle's `device_vector(dev)` at the `n`-th free input (R144). Free value, assumption
log 8. -/
opaque deviceVector : Nat → Device → Byte

/-- DEFAULT_VECTOR of the machine of `State.reset`, OPEN in R7. Free value, assumption log 9. -/
opaque defaultVector : Byte

/-- The window bytes of the ROM image of `State.reset`, OPEN in R7. Free value, assumption log 5. -/
opaque romByte : Nat → Byte

/-- The bytes from offset 0x800 on of the ROM image of `State.reset`: R25 lets an image be longer than
the window. Free value, assumption log 5. -/
opaque romTail : List Byte

/-- COMPANION_ROM of the machine of `State.reset`, OPEN in R7. Free value, assumption log 5. -/
opaque companionImage : List Byte

end Config

end Sys2Proof
end

