-- ==== Sys2Proof/Syntax.lean ====
section
/-! DEFINITION. The transactions of the block (spec/30_encoding.md rules R71, R73), the agents that perform them
(R4) and the pseudo-transactions (R77). -/

namespace Sys2Proof

/-- A transaction: one constructor per row of spec/opcode_table.json, with the operands of R73. -/
inductive Instr
  /-- Memory read (R100). -/
  | mrd (addr : Addr)
  /-- Instruction fetch (R101). -/
  | mfetch (addr : Addr)
  /-- Memory write (R102). -/
  | mwr (addr : Addr) (data : Byte)
  /-- I/O read (R121). -/
  | iord (ioaddr : Addr)
  /-- I/O write (R122). -/
  | iowr (ioaddr : Addr) (data : Byte)
  /-- The CPU's acknowledge cycle (R145). -/
  | iack
  /-- The CPU's return sequence (R147). -/
  | reti
  /-- The device at chain position `k` requests service (R141). -/
  | raise (k : BitVec 4)
  /-- The device at chain position `k` drops its request (R142). -/
  | withdraw (k : BitVec 4)
  /-- The reset entry point (R171). -/
  | reset
  /-- Power-on configuration (R170). -/
  | poweron
  deriving DecidableEq, Repr

/-- Who performs transactions on the block (R4). -/
inductive Agent
  | cpu
  | device
  | host
  deriving DecidableEq, Repr

/-- The agent column of R71. -/
def Instr.agent : Instr → Agent
  | .mrd _ => .cpu
  | .mfetch _ => .cpu
  | .mwr _ _ => .cpu
  | .iord _ => .cpu
  | .iowr _ _ => .cpu
  | .iack => .cpu
  | .reti => .cpu
  | .raise _ => .device
  | .withdraw _ => .device
  | .reset => .host
  | .poweron => .host

/-- The `K` column of R71. -/
def Instr.kind : Instr → BitVec 4
  | .mrd _ => 0x1#4
  | .mfetch _ => 0x2#4
  | .mwr _ _ => 0x3#4
  | .iord _ => 0x4#4
  | .iowr _ _ => 0x5#4
  | .iack => 0x6#4
  | .reti => 0x7#4
  | .raise _ => 0x8#4
  | .withdraw _ => 0x9#4
  | .reset => 0xA#4
  | .poweron => 0xB#4

/-- The pseudo-transactions of R77. -/
inductive Pseudo
  | selRom
  | selRam
  | nop
  deriving DecidableEq, Repr

/-- The expansion column of R77. -/
def Pseudo.expand : Pseudo → List Instr
  | .selRom => [.iowr 0x001A#16 0x00#8]
  | .selRam => [.iowr 0x001A#16 0x01#8]
  | .nop => []

end Sys2Proof
end

