-- ==== Sys2Proof/WellFormed.lean ====
section
/-! DEFINITION. Which transactions a word can stand for (spec/30_encoding.md rule R74, point 3): every operand value
of R73 but a chain position outside CHAIN. -/

namespace Sys2Proof

/-- `k < CHAIN_LEN` (R74). -/
def positionInChain (k : BitVec 4) : Bool := decide (k.toNat < Config.chainLen)

/-- A transaction whose operands R74 admits. -/
def Instr.wellFormed : Instr → Bool
  | .mrd _ => true
  | .mfetch _ => true
  | .mwr _ _ => true
  | .iord _ => true
  | .iowr _ _ => true
  | .iack => true
  | .reti => true
  | .raise k => positionInChain k
  | .withdraw k => positionInChain k
  | .reset => true
  | .poweron => true

end Sys2Proof
end

