-- ==== Sys2Proof/Decode.lean ====
section
/-! DEFINITION. The transaction word (spec/30_encoding.md rules R70 to R75): its fields, the decoder, total on every
32-bit word and rejecting by name, and the encoder. -/

namespace Sys2Proof

/-- Why R74 makes a word illegal, in R74's order. -/
inductive DecodeError
  /-- R74 point 1: `K` is 0x0 or 0xC to 0xF. -/
  | reservedKind
  /-- R74 point 2: a field the kind does not use is not zero. -/
  | unusedFieldNonzero
  /-- R74 point 3: RAISE or WITHDRAW with `N >= CHAIN_LEN`. -/
  | positionOutOfRange
  deriving DecidableEq, Repr

/-- `K = w[31:28]` (R70). -/
def kindField (w : Word) : BitVec 4 := w.extractLsb' 28 4

/-- `N = w[27:24]` (R70). -/
def positionField (w : Word) : BitVec 4 := w.extractLsb' 24 4

/-- `A = w[23:8]` (R70). -/
def addressField (w : Word) : Addr := w.extractLsb' 8 16

/-- `D = w[7:0]` (R70). -/
def dataField (w : Word) : Byte := w.extractLsb' 0 8

/-- The word with the four fields of R70. -/
def packWord (k n : BitVec 4) (a : Addr) (d : Byte) : Word := k ++ n ++ a ++ d

/-- `i` where the fields its kind does not use are zero (R72). -/
def unlessUnused (unusedZero : Bool) (i : Instr) : Except DecodeError Instr :=
  if unusedZero then .ok i else .error .unusedFieldNonzero

/-- `i`, a transaction on chain position `n`, where R74 points 2 and 3 admit it. -/
def ofPosition (unusedZero : Bool) (n : BitVec 4) (i : Instr) : Except DecodeError Instr :=
  if unusedZero then
    if positionInChain n then .ok i else .error .positionOutOfRange
  else .error .unusedFieldNonzero

/-- The decoder of R75. -/
def decode (w : Word) : Except DecodeError Instr :=
  let n := positionField w
  let a := addressField w
  let d := dataField w
  match (kindField w).toNat with
  | 0x1 => unlessUnused (n == 0#4 && d == 0#8) (.mrd a)
  | 0x2 => unlessUnused (n == 0#4 && d == 0#8) (.mfetch a)
  | 0x3 => unlessUnused (n == 0#4) (.mwr a d)
  | 0x4 => unlessUnused (n == 0#4 && d == 0#8) (.iord a)
  | 0x5 => unlessUnused (n == 0#4) (.iowr a d)
  | 0x6 => unlessUnused (n == 0#4 && a == 0#16 && d == 0#8) .iack
  | 0x7 => unlessUnused (n == 0#4 && a == 0#16 && d == 0#8) .reti
  | 0x8 => ofPosition (a == 0#16 && d == 0#8) n (.raise n)
  | 0x9 => ofPosition (a == 0#16 && d == 0#8) n (.withdraw n)
  | 0xA => unlessUnused (n == 0#4 && a == 0#16 && d == 0#8) .reset
  | 0xB => unlessUnused (n == 0#4 && a == 0#16 && d == 0#8) .poweron
  | _ => .error .reservedKind

/-- The word of a transaction, from the table of R72. -/
def encode : Instr → Word
  | .mrd a => packWord 0x1#4 0#4 a 0#8
  | .mfetch a => packWord 0x2#4 0#4 a 0#8
  | .mwr a d => packWord 0x3#4 0#4 a d
  | .iord a => packWord 0x4#4 0#4 a 0#8
  | .iowr a d => packWord 0x5#4 0#4 a d
  | .iack => packWord 0x6#4 0#4 0#16 0#8
  | .reti => packWord 0x7#4 0#4 0#16 0#8
  | .raise k => packWord 0x8#4 k 0#16 0#8
  | .withdraw k => packWord 0x9#4 k 0#16 0#8
  | .reset => packWord 0xA#4 0#4 0#16 0#8
  | .poweron => packWord 0xB#4 0#4 0#16 0#8

/-- The transaction the decoder reads from the `nbits`-bit row word `w`; a bit above `nbits` is 0. The
block's unit is the whole 32-bit word (R70), so there is no byte order to lay it out in. -/
def decodeTableWord (nbits w : Nat) : Option Instr :=
  if w < 2 ^ nbits ∧ w < 2 ^ 32 then (decode (BitVec.ofNat 32 w)).toOption else none

end Sys2Proof
end

