-- ==== Sys2Proof/Machine/State.lean ====
section
/-! DEFINITION. The whole state of the block (spec/10_state.md), its output events, and the reasons a transaction can
end in a fault or a refusal (spec/60_exceptions.md rules R200 to R207). -/

namespace Sys2Proof.Machine

/-- The life cycle (R33). -/
inductive Phase
  | unconfigured
  | running
  | failed
  deriving DecidableEq, Repr

/-- The state of one device of the chain (R29). -/
inductive DevState
  | idle
  | pending
  | inService
  deriving DecidableEq, Repr

/-- A position of the chain: 0 is the highest priority (R28). -/
abbrev Position := Fin Config.chainLen

/-- `chain` of the state record (R28, R29). -/
abbrev Chain := Vector DevState Config.chainLen

/-- What a transaction emits (`00_scope.md` section 5, R200). -/
inductive Event
  | rdata (v : Byte)
  | vector (v : Byte)
  | devWrite (dev : Device) (off : BitVec 2) (v : Byte)
  | devRead (dev : Device) (off : BitVec 2)
  | devAck (dev : Device)
  | devReti (dev : Device)
  | cpuReset
  deriving DecidableEq, Repr

/-- The RAM image as the entries that differ from `Config.ramFill`, addresses rising (R26). -/
abbrev Memory := List Host.Cell

/-- The canonical form: addresses strictly rising, inside the 65,536 of R36, and no entry that reads as
an unlisted address does. -/
abbrev Memory.wf (m : Memory) : Prop :=
  m.Pairwise (fun c d => c.1 < d.1) ∧ ∀ c ∈ m, c.1 < Config.memBytes ∧ c.2 ≠ Config.ramFill

/-- The ROM image: ROM_SIZE bytes, at least the overlay window's (R25). -/
structure RomImage where
  bytes : List Byte
  covers : Config.windowBytes ≤ bytes.length
  deriving DecidableEq, Repr

/-- The state record of spec/10_state.md, followed by the parameters and outputs of R7 and R200 and by
the model's own two fields (`inbox`, `draws`). In `Phase.unconfigured` and `Phase.failed` the spec gives
the record's other fields no value (R41): nothing reads them there, assumption log 4. -/
structure State where
  /-- R33. -/
  phase : Phase
  /-- `read_selector`, R22. -/
  readSelector : Bit
  /-- `write_selector`, R23. -/
  writeSelector : Bit
  /-- R25. -/
  rom : RomImage
  /-- R26. -/
  ram : Memory
  /-- `companion_rom`, R27. -/
  companionRom : List Byte
  /-- R28, R29. -/
  chain : Chain
  /-- Every event emitted so far, oldest first (R173 "event history"), assumption log 6. -/
  events : List Event
  /-- The parameters of R7. -/
  cfg : Params
  /-- The model's own: the words the agents have put to the block, next one first, assumption log 1. -/
  inbox : List Word
  /-- The model's own: how many free inputs have been taken, assumption logs 7 and 8. -/
  draws : Nat
  deriving DecidableEq, Repr

/-- The hardware's own fatal errors (R200, R206). -/
inductive Fault
  /-- Raised by POWERON in `Phase.unconfigured` when ROM_IMAGE is absent or shorter than the window
  (R170). It records the image's length or its absence (R206), and the state the fault leaves, whose
  phase is `Phase.failed`. Safe: the spec's own fault, assumption log 14. -/
  | configRomMissing (imageLength : Option Nat) (left : State)
  deriving DecidableEq, Repr

/-- The transactions the block gives no meaning (R200, R206). Each records the word and leaves the state
as it was. -/
inductive Refusal
  /-- Raised by `exec` for an instruction without a meaning; none is left. Safe. -/
  | notModelled (mnemonic : String)
  /-- R202: raised by every transaction but POWERON in `Phase.unconfigured`. Safe: the spec's own. -/
  | notConfigured (word : Word)
  /-- R203: raised by every transaction in `Phase.failed`. Safe: the spec's own. -/
  | machineFailed (word : Word)
  /-- R204: raised for a word R74 makes illegal. Safe: the spec's own. -/
  | illegalWord (word : Word)
  /-- R204: raised by MWR of the window where `writeSelector = 1`, which no run reaches. Safe: the
  spec's own. -/
  | unreachableState (word : Word)
  /-- R205: raised by POWERON in `Phase.running`. Safe: the spec's own. -/
  | alreadyConfigured (word : Word)
  deriving DecidableEq, Repr

/-- Every device idle (R171, R230). -/
def Chain.allIdle : Chain := Vector.replicate Config.chainLen .idle

/-- The ROM image of `State.reset`, OPEN in R7: free bytes, at least the window's (assumption log 5). -/
def RomImage.ofReset : RomImage where
  bytes := (List.range Config.windowBytes).map Config.romByte ++ Config.romTail
  covers := by simp

/-- The machine right after POWERON and its reset sequence (R230), before any later transaction. -/
def State.reset : State where
  phase := .running
  readSelector := 0#1
  writeSelector := 0#1
  rom := RomImage.ofReset
  ram := []
  companionRom := Config.companionImage
  chain := Chain.allIdle
  events := [.cpuReset]
  cfg :=
    { nestedAck := .defaultVector
      romImage := some RomImage.ofReset.bytes
      companionImage := Config.companionImage
      defaultVector := Config.defaultVector
      bootVector := ⟨0x0000#16, by decide⟩ }
  inbox := []
  draws := 0

end Sys2Proof.Machine
end

