-- ==== Sys2Proof/Machine/Flags.lean ====
section
/-! DEFINITION. The block has no flags, condition codes or predicates (spec/10_state.md rule R34). What it shows of its
state instead is computed here: the combined request line (R31), the presenter (R32, R146) and the
acknowledge selection (R143, R146), all functions of the chain. -/

namespace Sys2Proof.Machine

/-- `chain[k]` (R29). -/
def Chain.dev (ch : Chain) (k : Position) : DevState := ch[k]

/-- `chain[k] <- d` (R29). -/
def Chain.put (ch : Chain) (k : Position) (d : DevState) : Chain := ch.set k d

/-- The chain's positions, highest priority first (R28). -/
def positions : List Position := List.finRange Config.chainLen

/-- "least k with `chain[k]` in the given state" of R32 and R147. -/
def leastIn (d : DevState) (ch : Chain) : Option Position :=
  positions.find? (fun k => decide (ch.dev k = d))

/-- R31. -/
def intLine (s : State) : Bool :=
  positions.any (fun k => decide (s.chain.dev k = .pending) || decide (s.chain.dev k = .inService))

/-- The selection of R32 and R143 under NESTED_ACK_POLICY = `default_vector`. -/
def selectDefault (ch : Chain) : Option Position :=
  if (leastIn .inService ch).isSome then none else leastIn .pending ch

/-- The selection of R146 under NESTED_ACK_POLICY = `preempt_higher`. -/
def selectPreempt (ch : Chain) : Option Position :=
  positions.find? (fun k => decide (ch.dev k = .pending) &&
    positions.all (fun j => decide (j < k → ch.dev j = .idle)))

/-- R32, replaced by R146 under `preempt_higher`. -/
def presenter (s : State) : Option Position :=
  match s.cfg.nestedAck with
  | .defaultVector => selectDefault s.chain
  | .preemptHigher => selectPreempt s.chain

/-- The device an IACK services: the presenter, under either policy (R143, R146). -/
def ackSelect (s : State) : Option Position := presenter s

end Sys2Proof.Machine
end

