-- ==== Sys2Proof/Machine/Operands.lean ====
section
/-! DEFINITION. The operand forms of the block: an I/O address through the port decode of spec/41_io_ops.md rule R120,
a chain position (R73), the bit a port 0x1A write takes (R124), and an address of the overlay window (R53). -/

namespace Sys2Proof.Machine

/-- What an I/O address reaches (R120). -/
inductive IoTarget
  | sio (off : BitVec 2)
  | ctc1 (off : BitVec 2)
  | bankSel
  | unmapped
  deriving DecidableEq, Repr

/-- The port decode of R120; bits 15:8 are ignored (R37). -/
def ioDecode (ioaddr : Addr) : IoTarget :=
  let p : Byte := ioaddr.extractLsb' 0 8
  if p ≤ 0x03#8 then .sio (p.extractLsb' 0 2)
  else if 0x08#8 ≤ p ∧ p ≤ 0x0B#8 then .ctc1 (p.extractLsb' 0 2)
  else if p = Config.bankSelectPort then .bankSel
  else .unmapped

/-- `value bitwise-AND 1` as the selector it becomes (R124). -/
def selectorBit (v : Byte) : Bit := (v &&& 1#8).setWidth 1

/-- The device at a chain position, `CHAIN[k]` (R28). -/
def chainDevice (k : Position) : Device := Config.chain[k]

theorem toNat_lt_window {a : Addr} (h : a ≤ Config.windowHi) : a.toNat < Config.windowBytes := by
  have h' := BitVec.le_def.mp h
  simp at h'
  show a.toNat < 2048
  omega

end Sys2Proof.Machine
end

