-- ==== Sys2Proof/Machine/Ops.lean ====
section
/-! DEFINITION. The named operations the transactions share: the RAM image, the state's updates, the resolution of
memory accesses (spec/20_memory.md rules R54, R55), the device cycles (R121, R122), interrupt entry and
return (R145, R147), configuration and reset (R170, R171), admission (R202, R203, R207), and taking the next
word from the interface. -/

namespace Sys2Proof.Machine

/-- What a transaction answers. -/
abbrev Answer := Host.Outcome State Fault Refusal

/-! ### The RAM image -/

/-- The byte at an address, `Config.ramFill` where none is listed (R26). -/
def Memory.read : Memory → Nat → Byte
  | [], _ => Config.ramFill
  | (b, w) :: m, a => if b = a then w else Memory.read m a

/-- The entries with `(a, v)` put before the first that lies above it. -/
def Memory.insert (a : Nat) (v : Byte) : Memory → Memory
  | [] => [(a, v)]
  | c :: m => if a < c.1 then (a, v) :: c :: m else c :: Memory.insert a v m

/-- The entries but those at `a`. -/
def Memory.erase (m : Memory) (a : Nat) : Memory := m.filter (fun c => decide (c.1 ≠ a))

/-- `ram[a] <- v`, in canonical form: the byte an unlisted address reads as is not listed. -/
def Memory.write (m : Memory) (a : Nat) (v : Byte) : Memory :=
  if v = Config.ramFill then m.erase a else Memory.insert a v (m.erase a)

/-! ### The state's updates -/

/-- `ram[a]`. -/
def State.ramByte (s : State) (a : Addr) : Byte := s.ram.read a.toNat

/-- `ram[a] <- v`, every other field kept. -/
def State.setRam (s : State) (a : Addr) (v : Byte) : State := { s with ram := s.ram.write a.toNat v }

/-- `emit`, in order. -/
def State.emit (s : State) (es : List Event) : State := { s with events := s.events ++ es }

/-- The next free input is a fresh one. -/
def State.nextDraw (s : State) : State := { s with draws := s.draws + 1 }

/-- `read_selector <- b`. -/
def State.setReadSelector (s : State) (b : Bit) : State := { s with readSelector := b }

/-- `chain[k] <- d`. -/
def State.setDev (s : State) (k : Position) (d : DevState) : State := { s with chain := s.chain.put k d }

/-- The words left after the next one. -/
def State.setInbox (s : State) (ws : List Word) : State := { s with inbox := ws }

/-- `phase <- p`. -/
def State.setPhase (s : State) (p : Phase) : State := { s with phase := p }

/-! ### Memory resolution -/

/-- `rom[a]` for an offset inside the overlay window; R25 makes every image that long. -/
def RomImage.byteAt (r : RomImage) (a : Nat) (h : a < Config.windowBytes) : Byte :=
  r.bytes[a]'(Nat.lt_of_lt_of_le h r.covers)

/-- `MemRead(a, 1)` of R54. -/
def memRead (s : State) (a : Addr) : Byte :=
  if h : a ≤ Config.windowHi then
    if s.readSelector = 0#1 then s.rom.byteAt a.toNat (toNat_lt_window h) else s.ramByte a
  else s.ramByte a

/-- `MemWrite(a, 1, v)` of R55, for the transaction whose word is `w`. -/
def memWrite (w : Word) (a : Addr) (v : Byte) (s : State) : Answer :=
  if a ≤ Config.windowHi then
    if s.writeSelector = 0#1 then .next (s.setRam a v) else .refused (.unreachableState w)
  else .next (s.setRam a v)

/-- A memory read's effect: the resolved byte goes to the CPU (R100, R101). -/
def readCycle (a : Addr) (s : State) : State := s.emit [.rdata (memRead s a)]

/-! ### Device cycles and draws -/

/-- An I/O read of a device: the block names the offset and passes the device's byte on (R121, R126). -/
def devReadCycle (dev : Device) (off : BitVec 2) (s : State) : State :=
  (s.emit [.devRead dev off, .rdata (Config.deviceRead s.draws dev off)]).nextDraw

/-- An I/O write of a device (R122, R126). -/
def devWriteCycle (dev : Device) (off : BitVec 2) (v : Byte) (s : State) : State :=
  s.emit [.devWrite dev off v]

/-- An I/O read nothing answers: any byte (R123, R125). -/
def drawCycle (s : State) : State := (s.emit [.rdata (Config.draw s.draws)]).nextDraw

/-! ### Interrupt entry and return, the block's part (R213, R214) -/

/-- RAISE's effect on the chain (R141). -/
def raiseRequest (k : Position) (s : State) : State :=
  if s.chain.dev k = .idle then s.setDev k .pending else s

/-- WITHDRAW's effect on the chain (R142). -/
def dropRequest (k : Position) (s : State) : State :=
  if s.chain.dev k = .pending then s.setDev k .idle else s

/-- Trap entry (R145): the selected device enters service and its vector goes to the CPU; with none
selected the default vector does and nothing else changes. -/
def acknowledge (s : State) : State :=
  match ackSelect s with
  | some k =>
    ((s.setDev k .inService).emit
      [.devAck (chainDevice k), .vector (Config.deviceVector s.draws (chainDevice k))]).nextDraw
  | none => s.emit [.vector s.cfg.defaultVector]

/-- Trap return (R147, R148): the least device in service goes idle; with none nothing changes. -/
def endService (s : State) : State :=
  match leastIn .inService s.chain with
  | some j => (s.setDev j .idle).emit [.devReti (chainDevice j)]
  | none => s

/-! ### Configuration and reset -/

/-- `reset_sequence()` of R171. -/
def resetSequence (s : State) : State :=
  State.emit { s with readSelector := 0#1, writeSelector := 0#1, chain := Chain.allIdle } [.cpuReset]

/-- The loads of R170, from an image that covers the window. -/
def configure (rom : RomImage) (s : State) : State :=
  { s with phase := .running, rom := rom, ram := [], companionRom := s.cfg.companionImage }

/-- `raise Fault(ConfigRomMissing)` of R170, recording the image's length or its absence (R206). -/
def failConfiguration (s : State) : Answer :=
  .fault (.configRomMissing (s.cfg.romImage.map List.length) (s.setPhase .failed))

/-- POWERON in `Phase.unconfigured` (R170). -/
def powerOnSequence (s : State) : Answer :=
  match s.cfg.romImage with
  | none => failConfiguration s
  | some img =>
    if h : Config.windowBytes ≤ img.length then .next (resetSequence (configure ⟨img, h⟩ s))
    else failConfiguration s

/-- The CPU core's first transaction after `cpu_reset` (R56, R172, R231). -/
def State.bootFetch (s : State) : Instr := .mfetch s.cfg.bootVector.addr

/-! ### Admission -/

/-- `require phase == Running` of every transaction but POWERON (R202, R203). -/
def inRunning (i : Instr) (s : State) (body : Answer) : Answer :=
  match s.phase with
  | .running => body
  | .unconfigured => .refused (.notConfigured (encode i))
  | .failed => .refused (.machineFailed (encode i))

/-- Admission of a transaction on a chain position: an illegal position is reported after `machineFailed`
and before `notConfigured` (R74, R207). -/
def admitPosition (i : Instr) (k : BitVec 4) (s : State) (body : Position → Answer) : Answer :=
  if h : k.toNat < Config.chainLen then inRunning i s (body ⟨k.toNat, h⟩)
  else match s.phase with
    | .failed => .refused (.machineFailed (encode i))
    | .unconfigured => .refused (.illegalWord (encode i))
    | .running => .refused (.illegalWord (encode i))

/-- Admission of POWERON (R170, R203, R205). -/
def admitPowerOn (i : Instr) (s : State) (body : Answer) : Answer :=
  match s.phase with
  | .unconfigured => body
  | .running => .refused (.alreadyConfigured (encode i))
  | .failed => .refused (.machineFailed (encode i))

/-! ### Outcome codes (R206) -/

/-- The code column of R206 for a fault. -/
def Fault.code : Fault → Nat
  | .configRomMissing _ _ => 1

/-- The code column of R206 for a refusal; the model's own has none. -/
def Refusal.code : Refusal → Option Nat
  | .notConfigured _ => some 16
  | .machineFailed _ => some 17
  | .illegalWord _ => some 18
  | .unreachableState _ => some 19
  | .alreadyConfigured _ => some 20
  | _ => none

/-! ### The interface -/

/-- What the interface holds for the next step. -/
inductive NextWord
  /-- No agent has put a word to the block. -/
  | idle
  /-- The word is refused before any meaning is tried. -/
  | refuse (r : Refusal)
  /-- The transaction to perform, and the state it finds. -/
  | perform (i : Instr) (s : State)
  deriving DecidableEq, Repr

/-- The next word, decoded, with the checks of R207 that come before a meaning's own. -/
def takeWord (s : State) : NextWord :=
  match s.inbox with
  | [] => .idle
  | w :: ws =>
    if s.phase = .failed then .refuse (.machineFailed w)
    else match decode w with
      | .error _ => .refuse (.illegalWord w)
      | .ok i => .perform i (s.setInbox ws)

end Sys2Proof.Machine
end

