-- ==== Sys2Proof/Machine/Control.lean ====
section
/-! DEFINITION. The host's transactions (spec/43_control_ops.md). -/

namespace Sys2Proof.Machine

/-- RESET (R171). -/
def execReset (s : State) : Answer :=
  inRunning .reset s (.next (resetSequence s))

/-- POWERON (R170, R205). -/
def execPoweron (s : State) : Answer :=
  admitPowerOn .poweron s (powerOnSequence s)

end Sys2Proof.Machine
end

