-- ==== Sys2Proof/Machine/Interrupt.lean ====
section
/-! DEFINITION. The interrupt daisy-chain transactions (spec/42_interrupt_ops.md). -/

namespace Sys2Proof.Machine

/-- IACK (R145). -/
def execIack (s : State) : Answer :=
  inRunning .iack s (.next (acknowledge s))

/-- RETI (R147, R148). -/
def execReti (s : State) : Answer :=
  inRunning .reti s (.next (endService s))

/-- RAISE (R141). -/
def execRaise (k : BitVec 4) (s : State) : Answer :=
  admitPosition (.raise k) k s (fun p => .next (raiseRequest p s))

/-- WITHDRAW (R142). -/
def execWithdraw (k : BitVec 4) (s : State) : Answer :=
  admitPosition (.withdraw k) k s (fun p => .next (dropRequest p s))

end Sys2Proof.Machine
end

