-- ==== Sys2Proof/Machine/Io.lean ====
section
/-! DEFINITION. The I/O transactions (spec/41_io_ops.md). -/

namespace Sys2Proof.Machine

/-- IORD (R121): the device's byte, or a draw at port 0x1A (R123) and at an unmapped port (R125). -/
def execIord (ioaddr : Addr) (s : State) : Answer :=
  inRunning (.iord ioaddr) s <|
    match ioDecode ioaddr with
    | .sio off => .next (devReadCycle .sio off s)
    | .ctc1 off => .next (devReadCycle .ctc1 off s)
    | .bankSel => .next (drawCycle s)
    | .unmapped => .next (drawCycle s)

/-- IOWR (R122): to the device, to `read_selector` at port 0x1A (R124), or ignored (R125). -/
def execIowr (ioaddr : Addr) (data : Byte) (s : State) : Answer :=
  inRunning (.iowr ioaddr data) s <|
    match ioDecode ioaddr with
    | .sio off => .next (devWriteCycle .sio off data s)
    | .ctc1 off => .next (devWriteCycle .ctc1 off data s)
    | .bankSel => .next (s.setReadSelector (selectorBit data))
    | .unmapped => .next s

end Sys2Proof.Machine
end

