-- ==== Sys2Proof/Machine/Memory.lean ====
section
/-! DEFINITION. The memory transactions (spec/40_memory_ops.md). -/

namespace Sys2Proof.Machine

/-- MRD (R100). -/
def execMrd (addr : Addr) (s : State) : Answer :=
  inRunning (.mrd addr) s (.next (readCycle addr s))

/-- MFETCH (R101): the resolution of MRD. -/
def execMfetch (addr : Addr) (s : State) : Answer :=
  inRunning (.mfetch addr) s (.next (readCycle addr s))

/-- MWR (R102). -/
def execMwr (addr : Addr) (data : Byte) (s : State) : Answer :=
  inRunning (.mwr addr data) s (memWrite (encode (.mwr addr data)) addr data s)

end Sys2Proof.Machine
end

