-- ==== Sys2Proof/Machine/Dispatch.lean ====
section
/-! DEFINITION. One arm per row of spec/opcode_table.json. -/

namespace Sys2Proof.Machine

def exec (i : Instr) (s : State) : Host.Outcome State Fault Refusal :=
  match i with
  | .mrd addr => Sys2Proof.Machine.execMrd addr s
  | .mfetch addr => Sys2Proof.Machine.execMfetch addr s
  | .mwr addr data => Sys2Proof.Machine.execMwr addr data s
  | .iord ioaddr => Sys2Proof.Machine.execIord ioaddr s
  | .iowr ioaddr data => Sys2Proof.Machine.execIowr ioaddr data s
  | .iack => Sys2Proof.Machine.execIack s
  | .reti => Sys2Proof.Machine.execReti s
  | .raise k => Sys2Proof.Machine.execRaise k s
  | .withdraw k => Sys2Proof.Machine.execWithdraw k s
  | .reset => Sys2Proof.Machine.execReset s
  | .poweron => Sys2Proof.Machine.execPoweron s

end Sys2Proof.Machine
end

