-- ==== Sys2Proof/Machine/Step.lean ====
section
/-! DEFINITION. One step of the block: the next transaction of its interface, performed whole (spec/20_memory.md rules
R58, R61). -/

namespace Sys2Proof.Machine

/-- With no word in the interface nothing happens (assumption log 2); else the word is taken, decoded and
performed. -/
def step (s : State) : Host.Outcome State Fault Refusal :=
  match takeWord s with
  | .idle => .next s
  | .refuse r => .refused r
  | .perform i t => exec i t

/-- `s` with the row word `w` as the next word of its interface (assumption log 1). -/
def State.withFetchWord (s : State) (nbits w : Nat) : State :=
  s.setInbox (BitVec.ofNat 32 (w % 2 ^ nbits) :: s.inbox)

end Sys2Proof.Machine
end

