-- ==== Sys2Proof/Machine/Assembly.lean ====
section
/-! DEFINITION. The transaction assembly of spec/30_encoding.md rules R76 and R77: one line of text to the
transactions it stands for. What R76 leaves open (blanks, letter case of hexadecimal digits) is fixed in
assumption log 17. -/

namespace Sys2Proof.Machine

/-- Why a line is no transaction of R76. -/
inductive AsmError
  /-- The first word is no mnemonic of R76 and no pseudo-transaction of R77. -/
  | unknownMnemonic
  /-- Too few or too many operands. -/
  | operandCount
  /-- An operand is no number of R76, and no device name where one may stand. -/
  | badOperand
  /-- "a value that does not fit is an assembly error, not a truncation" (R76). -/
  | doesNotFit
  deriving DecidableEq, Repr

/-- A blank between the parts of a line. -/
def isBlank (c : Char) : Bool := c = ' ' || c = '\t'

/-- The text without the blanks at its ends. -/
def trimBlanks (cs : List Char) : List Char :=
  ((cs.dropWhile isBlank).reverse.dropWhile isBlank).reverse

/-- The text cut at every comma; the first piece stands in front. -/
def cutAtCommas : List Char → List Char × List (List Char)
  | [] => ([], [])
  | c :: cs =>
    if c = ',' then ([], (cutAtCommas cs).1 :: (cutAtCommas cs).2)
    else (c :: (cutAtCommas cs).1, (cutAtCommas cs).2)

/-- The operands of a line after its mnemonic. -/
def operandsOf (cs : List Char) : List (List Char) :=
  if trimBlanks cs = [] then []
  else ((cutAtCommas cs).1 :: (cutAtCommas cs).2).map trimBlanks

/-- The value of a digit below `base`. -/
def digitValue (base : Nat) (c : Char) : Option Nat :=
  let v :=
    if '0' ≤ c ∧ c ≤ '9' then some (c.toNat - '0'.toNat)
    else if 'a' ≤ c ∧ c ≤ 'f' then some (c.toNat - 'a'.toNat + 10)
    else if 'A' ≤ c ∧ c ≤ 'F' then some (c.toNat - 'A'.toNat + 10)
    else none
  v.filter (fun n => decide (n < base))

/-- The value of the digits after `acc`, most significant first. -/
def digitsValue (base : Nat) (acc : Nat) : List Char → Option Nat
  | [] => some acc
  | c :: cs => (digitValue base c).bind (fun d => digitsValue base (base * acc + d) cs)

/-- "Numbers are hexadecimal with `0x` or decimal" (R76). -/
def numberValue : List Char → Option Nat
  | [] => none
  | ['0', 'x'] => none
  | '0' :: 'x' :: ds => digitsValue 16 0 ds
  | ds => digitsValue 10 0 ds

/-- An operand of `n` bits: a number that fits. -/
def operandValue (n : Nat) (cs : List Char) : Except AsmError (BitVec n) :=
  match numberValue cs with
  | none => .error .badOperand
  | some v => if v < 2 ^ n then .ok (BitVec.ofNat n v) else .error .doesNotFit

/-- A `<dev>` of R76: CTC1, SIO or a chain position. -/
def deviceValue (cs : List Char) : Except AsmError (BitVec 4) :=
  if cs = "CTC1".toList then .ok 0
  else if cs = "SIO".toList then .ok 1
  else match numberValue cs with
    | none => .error .badOperand
    | some v => if v < Config.chainLen then .ok (BitVec.ofNat 4 v) else .error .doesNotFit

/-- A transaction without operands. -/
def asmPlain (is : List Instr) : List (List Char) → Except AsmError (List Instr)
  | [] => .ok is
  | _ :: _ => .error .operandCount

/-- A transaction on an address. -/
def asmAddr (f : Addr → Instr) : List (List Char) → Except AsmError (List Instr)
  | [a] => (operandValue 16 a).map (fun a => [f a])
  | _ => .error .operandCount

/-- A transaction on an address and a byte. -/
def asmAddrByte (f : Addr → Byte → Instr) : List (List Char) → Except AsmError (List Instr)
  | [a, d] =>
    (operandValue 16 a).bind (fun a => (operandValue 8 d).map (fun d => [f a d]))
  | _ => .error .operandCount

/-- A transaction on a device. -/
def asmDevice (f : BitVec 4 → Instr) : List (List Char) → Except AsmError (List Instr)
  | [k] => (deviceValue k).map (fun k => [f k])
  | _ => .error .operandCount

/-- The mnemonics of R76 and R77, upper case. -/
def asmTable : List (List Char × (List (List Char) → Except AsmError (List Instr))) :=
  [ ("MRD".toList, asmAddr .mrd),
    ("MFETCH".toList, asmAddr .mfetch),
    ("MWR".toList, asmAddrByte .mwr),
    ("IORD".toList, asmAddr .iord),
    ("IOWR".toList, asmAddrByte .iowr),
    ("IACK".toList, asmPlain [.iack]),
    ("RETI".toList, asmPlain [.reti]),
    ("RAISE".toList, asmDevice .raise),
    ("WITHDRAW".toList, asmDevice .withdraw),
    ("RESET".toList, asmPlain [.reset]),
    ("POWERON".toList, asmPlain [.poweron]),
    ("SELROM".toList, asmPlain Pseudo.selRom.expand),
    ("SELRAM".toList, asmPlain Pseudo.selRam.expand),
    ("NOP".toList, asmPlain Pseudo.nop.expand) ]

/-- One line of assembly: the transactions it stands for, none for a line with no text before its
comment. -/
def assembleLine (line : List Char) : Except AsmError (List Instr) :=
  let body := trimBlanks (line.takeWhile (fun c => decide (c ≠ ';')))
  if body = [] then .ok []
  else
    let name := body.takeWhile (fun c => !isBlank c)
    match asmTable.find? (fun row => decide (row.1 = name)) with
    | none => .error .unknownMnemonic
    | some row => row.2 (operandsOf (body.dropWhile (fun c => !isBlank c)))

/-- The words of a script, line by line. -/
def assemble : List (List Char) → Except AsmError (List Word)
  | [] => .ok []
  | l :: ls =>
    (assembleLine l).bind (fun is => (assemble ls).map (fun ws => is.map encode ++ ws))

end Sys2Proof.Machine
end

