-- ==== Sys2Proof/Safety.lean ====
section
/-! DEFINITION. The terms claims are stated in: outcomes, the invariants of the spec's prose, and what a sequence of
words is to leave behind. Each invariant speaks of `Phase.running` alone: R41 gives the record no value in
the other phases. -/

namespace Sys2Proof.Machine

/-- The transaction stops with one of the hardware's own fatal errors (R200). -/
def Answer.isFault : Answer → Bool
  | .next _ => false
  | .fault _ => true
  | .refused _ => false

/-- The three lines of R53's read column: the byte `v` that a read of `a` returns. -/
abbrev ReadsAs (s : State) (a : Addr) (v : Byte) : Prop :=
  (a ≤ 0x07FF#16 → s.readSelector = 0#1 → s.rom.bytes[a.toNat]? = some v) ∧
  (a ≤ 0x07FF#16 → s.readSelector = 1#1 → v = s.ramByte a) ∧
  (0x0800#16 ≤ a → v = s.ramByte a)

/-- A row of R72: its match and mask, and whether its `N` field is a chain position (R74 point 3). -/
structure OpcodeRow where
  pattern : Word
  mask : Word
  onChain : Bool
  deriving DecidableEq, Repr

/-- The match and mask columns of R72, in its order. -/
def opcodeRows : List OpcodeRow :=
  [ ⟨0x10000000#32, 0xFF0000FF#32, false⟩, ⟨0x20000000#32, 0xFF0000FF#32, false⟩,
    ⟨0x30000000#32, 0xFF000000#32, false⟩, ⟨0x40000000#32, 0xFF0000FF#32, false⟩,
    ⟨0x50000000#32, 0xFF000000#32, false⟩, ⟨0x60000000#32, 0xFFFFFFFF#32, false⟩,
    ⟨0x70000000#32, 0xFFFFFFFF#32, false⟩, ⟨0x80000000#32, 0xF0FFFFFF#32, true⟩,
    ⟨0x90000000#32, 0xF0FFFFFF#32, true⟩, ⟨0xA0000000#32, 0xFFFFFFFF#32, false⟩,
    ⟨0xB0000000#32, 0xFFFFFFFF#32, false⟩ ]

/-- The word `w` is one of the row's (R72, R74). -/
abbrev OpcodeRow.covers (r : OpcodeRow) (w : Word) : Prop :=
  w &&& r.mask = r.pattern ∧ (r.onChain = true → (positionField w).toNat < Config.chainLen)

/-- R74's three causes over a word's fields (the fields a kind does not use are R71's). -/
abbrev IllegalFields (k : Nat) (n : BitVec 4) (a : Addr) (d : Byte) : Prop :=
  (k = 0x0 ∨ 0xC ≤ k) ∨
  ((k = 0x1 ∨ k = 0x2 ∨ k = 0x4) ∧ (n ≠ 0#4 ∨ d ≠ 0#8)) ∨
  ((k = 0x3 ∨ k = 0x5) ∧ n ≠ 0#4) ∨
  ((k = 0x6 ∨ k = 0x7 ∨ k = 0xA ∨ k = 0xB) ∧ (n ≠ 0#4 ∨ a ≠ 0#16 ∨ d ≠ 0#8)) ∨
  ((k = 0x8 ∨ k = 0x9) ∧ (a ≠ 0#16 ∨ d ≠ 0#8 ∨ 2 ≤ n.toNat))

/-- The word is illegal by R74. -/
abbrev IllegalCause (w : Word) : Prop :=
  IllegalFields (kindField w).toNat (positionField w) (addressField w) (dataField w)

/-- `n` steps of the machine, stopping at the first fault or refusal. -/
def runSteps (n : Nat) (s : State) : Answer := Host.Core.run Sys2Proof.core n s

/-- R26: the RAM image is in canonical form. -/
def RamCanonical (s : State) : Prop := s.phase = .running → s.ram.wf

/-- R23: `write_selector` is never changed after reset. -/
def WritesGoToRam (s : State) : Prop := s.phase = .running → s.writeSelector = 0#1

/-- R30: under this hardware's policy at most one device is in service. -/
def OneInService (s : State) : Prop :=
  s.phase = .running → s.cfg.nestedAck = .defaultVector →
    ∀ j k : Position, s.chain.dev j = .inService → s.chain.dev k = .inService → j = k

/-- The devices in service, in priority order. -/
def servicedDevices (ch : Chain) : List Device :=
  (positions.filter (fun k => decide (ch.dev k = .inService))).map chainDevice

/-- What one event does to the services under way, the latest acknowledged first. -/
def serviceEvent (st : List Device) : Event → List Device
  | .devAck d => d :: st
  | .devReti d => st.erase d
  | .cpuReset => []
  | .rdata _ => st
  | .vector _ => st
  | .devWrite _ _ _ => st
  | .devRead _ _ => st

/-- The services under way by the event history, the latest acknowledged first. -/
def openServices (es : List Event) : List Device := es.foldl serviceEvent []

/-- R146's invariant, of either policy: the devices in service, in priority order, were acknowledged in
the reverse of that order. -/
def NestedInPriorityOrder (s : State) : Prop :=
  s.phase = .running → openServices s.events = servicedDevices s.chain

/-- `ram[a]` after one transaction that completes, from its value before (R26, R61). -/
def ramAfter (a : Addr) (v : Byte) : Instr → Byte
  | .mrd _ => v
  | .mfetch _ => v
  | .mwr b d => if b = a then d else v
  | .iord _ => v
  | .iowr _ _ => v
  | .iack => v
  | .reti => v
  | .raise _ => v
  | .withdraw _ => v
  | .reset => v
  | .poweron => Config.ramFill

/-- `read_selector` after one transaction that completes, from its value before (R22, R124, R171). -/
def selectorAfter (b : Bit) : Instr → Bit
  | .mrd _ => b
  | .mfetch _ => b
  | .mwr _ _ => b
  | .iord _ => b
  | .iowr p d => if p.extractLsb' 0 8 = Config.bankSelectPort then d.extractLsb' 0 1 else b
  | .iack => b
  | .reti => b
  | .raise _ => b
  | .withdraw _ => b
  | .reset => 0#1
  | .poweron => 0#1

/-- The last write to `ram[a]` among the words, `v` where there is none (R61). -/
def ramAfterWords (a : Addr) (ws : List Word) (v : Byte) : Byte :=
  ws.foldl (fun v w => match decode w with
    | .ok i => ramAfter a v i
    | .error _ => v) v

/-- The last write to `read_selector` among the words, `b` where there is none (R22). -/
def selectorAfterWords (ws : List Word) (b : Bit) : Bit :=
  ws.foldl (fun b w => match decode w with
    | .ok i => selectorAfter b i
    | .error _ => b) b

/-- The word is a transaction that `p` holds of. -/
def isWordOf (p : Instr → Bool) (w : Word) : Bool :=
  match decode w with
  | .ok i => p i
  | .error _ => false

/-- An IOWR that reaches port 0x1A (R120, R124). -/
def writesBankSelect : Instr → Bool
  | .mrd _ => false
  | .mfetch _ => false
  | .mwr _ _ => false
  | .iord _ => false
  | .iowr p _ => decide (p.extractLsb' 0 8 = Config.bankSelectPort)
  | .iack => false
  | .reti => false
  | .raise _ => false
  | .withdraw _ => false
  | .reset => false
  | .poweron => false

/-- An IOWR of port 0x1A with bit 0 set: it turns the overlay off for reads (R231). -/
def turnsOverlayOff : Instr → Bool
  | .mrd _ => false
  | .mfetch _ => false
  | .mwr _ _ => false
  | .iord _ => false
  | .iowr p d => decide (p.extractLsb' 0 8 = Config.bankSelectPort) && d.getLsbD 0
  | .iack => false
  | .reti => false
  | .raise _ => false
  | .withdraw _ => false
  | .reset => false
  | .poweron => false

/-- R57's four: after one of these a read may return another byte. -/
def disturbsReads : Instr → Bool
  | .mrd _ => false
  | .mfetch _ => false
  | .mwr _ _ => true
  | .iord _ => false
  | .iowr p _ => decide (p.extractLsb' 0 8 = Config.bankSelectPort)
  | .iack => false
  | .reti => false
  | .raise _ => false
  | .withdraw _ => false
  | .reset => true
  | .poweron => true

/-- The return sequence and the reset, which end a service (R210, R236). -/
def endsServices : Instr → Bool
  | .mrd _ => false
  | .mfetch _ => false
  | .mwr _ _ => false
  | .iord _ => false
  | .iowr _ _ => false
  | .iack => false
  | .reti => true
  | .raise _ => false
  | .withdraw _ => false
  | .reset => true
  | .poweron => false

end Sys2Proof.Machine
end

