-- ==== Sys2Proof/Certificates/Slice0/Obligations.lean ====
section
/-! DEFINITION. The statements for the provers, from the numbered rules of spec/. A rule's own words stand in
OBLIGATIONS.json. Free values (`Config.draw`, `Config.deviceRead`, `Config.deviceVector`) are opaque, so a
statement that names one holds whatever it is (assumption logs 7 and 8). -/

open Sys2Proof Sys2Proof.Machine

/-! ### Words -/

/-- Every well-formed transaction is read back from its word, every operand at every value. -/
def Obligations.DecodeOfEncode : Prop :=
  ∀ i : Instr, i.wellFormed = true → decode (encode i) = .ok i

/-- Every word that decodes is the word of what it decodes to, which is well formed. -/
def Obligations.EncodeOfDecode : Prop :=
  ∀ (w : Word) (i : Instr), decode w = .ok i → encode i = w ∧ i.wellFormed = true

/-- R72's match and mask columns: a word decodes exactly when one row covers it, and then one alone, the
row of the word's kind. -/
def Obligations.DecodingFollowsOpcodeTable : Prop :=
  ∀ w : Word,
    ((∃ i, decode w = .ok i) ↔ ∃ r ∈ opcodeRows, r.covers w) ∧
    (∀ r ∈ opcodeRows, ∀ q ∈ opcodeRows, r.covers w → q.covers w → r = q) ∧
    (∀ i, decode w = .ok i → ∀ r ∈ opcodeRows, r.covers w → i.kind = kindField r.pattern)

/-- R74: the three causes, what becomes of an illegal word in any phase but `failed`, and that a legal word
has one row of R72. -/
def Obligations.IllegalWordsRefused : Prop :=
  ∀ w : Word,
    ((∃ e, decode w = .error e) ↔ IllegalCause w) ∧
    (IllegalCause w → ∀ (s : State) (ws : List Word), s.phase ≠ .failed → s.inbox = w :: ws →
      step s = .refused (.illegalWord w)) ∧
    (¬ IllegalCause w → ∃ r ∈ opcodeRows, r.covers w ∧ ∀ q ∈ opcodeRows, q.covers w → q = r)

/-- Words written out from R72 and from the vectors of `95_test_vectors.md`, one of each row. -/
def Obligations.WordsOfTheVectors : Prop :=
  decode 0x1007FF00#32 = .ok (.mrd 0x07FF#16) ∧
  decode 0x20000100#32 = .ok (.mfetch 0x0001#16) ∧
  decode 0x3001233C#32 = .ok (.mwr 0x0123#16 0x3C#8) ∧
  decode 0x40001A00#32 = .ok (.iord 0x001A#16) ∧
  decode 0x50121A01#32 = .ok (.iowr 0x121A#16 0x01#8) ∧
  decode 0x60000000#32 = .ok .iack ∧
  decode 0x70000000#32 = .ok .reti ∧
  decode 0x81000000#32 = .ok (.raise 1#4) ∧
  decode 0x90000000#32 = .ok (.withdraw 0#4) ∧
  decode 0xA0000000#32 = .ok .reset ∧
  decode 0xB0000000#32 = .ok .poweron

/-- R77's expansions, and what performing SELROM and SELRAM does. -/
def Obligations.PseudoTransactions : Prop :=
  Pseudo.selRom.expand.map encode = [0x50001A00#32] ∧
  Pseudo.selRam.expand.map encode = [0x50001A01#32] ∧
  Pseudo.nop.expand = [] ∧
  ∀ s : State, s.phase = .running →
    (∀ i ∈ Pseudo.selRom.expand, exec i s = .next { s with readSelector := 0#1 }) ∧
    (∀ i ∈ Pseudo.selRam.expand, exec i s = .next { s with readSelector := 1#1 })

/-- Lines of R76's assembly, and values that do not fit. That `RAISE 2`, a device number outside the chain,
is reported as a value that does not fit is the model's choice, assumption log 17. -/
def Obligations.AssemblyLines : Prop :=
  assembleLine "MRD 0x07FF ; -> 0x5A".toList = .ok [.mrd 0x07FF#16] ∧
  assembleLine "MFETCH 256".toList = .ok [.mfetch 0x0100#16] ∧
  assembleLine "MWR 0x0123, 0x3C".toList = .ok [.mwr 0x0123#16 0x3C#8] ∧
  assembleLine "IORD 0x001A".toList = .ok [.iord 0x001A#16] ∧
  assembleLine "IOWR 0x121A, 1".toList = .ok [.iowr 0x121A#16 0x01#8] ∧
  assembleLine "IACK".toList = .ok [.iack] ∧
  assembleLine "RETI ; end of service".toList = .ok [.reti] ∧
  assembleLine "RAISE SIO".toList = .ok [.raise 1#4] ∧
  assembleLine "WITHDRAW 0".toList = .ok [.withdraw 0#4] ∧
  assembleLine "RESET".toList = .ok [.reset] ∧
  assembleLine "POWERON".toList = .ok [.poweron] ∧
  assembleLine "MWR 0x0123, 0x100".toList = .error .doesNotFit ∧
  assembleLine "MRD 0x10000".toList = .error .doesNotFit ∧
  assembleLine "RAISE 2".toList = .error .doesNotFit

/-! ### A step -/

/-- A step performs the transaction the next word decodes to, on the state less that word. -/
def Obligations.StepRunsDecodedTransaction : Prop :=
  ∀ (s : State) (w : Word) (ws : List Word) (i : Instr),
    s.inbox = w :: ws → decode w = .ok i → step s = exec i { s with inbox := ws }

/-- With no word in the interface a step leaves the state (the model's choice, assumption log 2). -/
def Obligations.StepWithoutWord : Prop :=
  ∀ s : State, s.inbox = [] → step s = .next s

/-- R207's check order over R206's causes, each with the word or the image length it records. -/
def Obligations.CheckOrder : Prop :=
  ∀ (s : State) (w : Word) (ws : List Word), s.inbox = w :: ws →
    (s.phase = .failed → step s = .refused (.machineFailed w)) ∧
    (s.phase ≠ .failed → ∀ e, decode w = .error e → step s = .refused (.illegalWord w)) ∧
    (s.phase = .unconfigured → ∀ i, decode w = .ok i → i ≠ .poweron →
      step s = .refused (.notConfigured w)) ∧
    (s.phase = .running → decode w = .ok .poweron → step s = .refused (.alreadyConfigured w)) ∧
    (s.phase = .running → ∀ a v, decode w = .ok (.mwr a v) → a ≤ 0x07FF#16 →
      s.writeSelector = 1#1 → step s = .refused (.unreachableState w)) ∧
    (s.phase = .unconfigured → decode w = .ok .poweron →
      (∀ img, s.cfg.romImage = some img → img.length < 0x800) →
      ∃ left, step s = .fault (.configRomMissing (s.cfg.romImage.map List.length) left))

/-- The numbers R206 gives the outcomes. -/
def Obligations.OutcomeCodes : Prop :=
  ∀ (n : Option Nat) (s : State) (w : Word),
    (Fault.configRomMissing n s).code = 1 ∧
    (Refusal.notConfigured w).code = some 16 ∧
    (Refusal.machineFailed w).code = some 17 ∧
    (Refusal.illegalWord w).code = some 18 ∧
    (Refusal.unreachableState w).code = some 19 ∧
    (Refusal.alreadyConfigured w).code = some 20

/-! ### Memory transactions -/

/-- R100: MRD in each phase, its word, its byte by R53's map, and that it changes nothing else. -/
def Obligations.MemoryRead : Prop :=
  ∀ (a : Addr) (s : State),
    decode (0x1#4 ++ 0x0#4 ++ a ++ 0x00#8) = .ok (.mrd a) ∧
    (s.phase = .running → ∃ v, ReadsAs s a v ∧
      exec (.mrd a) s = .next { s with events := s.events ++ [.rdata v] }) ∧
    (s.phase = .unconfigured → exec (.mrd a) s = .refused (.notConfigured (encode (.mrd a)))) ∧
    (s.phase = .failed → exec (.mrd a) s = .refused (.machineFailed (encode (.mrd a))))

/-- R101: MFETCH, by the same map. -/
def Obligations.InstructionFetch : Prop :=
  ∀ (a : Addr) (s : State),
    decode (0x2#4 ++ 0x0#4 ++ a ++ 0x00#8) = .ok (.mfetch a) ∧
    (s.phase = .running → ∃ v, ReadsAs s a v ∧
      exec (.mfetch a) s = .next { s with events := s.events ++ [.rdata v] } ∧
      exec (.mfetch a) s = exec (.mrd a) s) ∧
    (s.phase = .unconfigured → exec (.mfetch a) s = .refused (.notConfigured (encode (.mfetch a)))) ∧
    (s.phase = .failed → exec (.mfetch a) s = .refused (.machineFailed (encode (.mfetch a))))

/-- R102 and R55: MWR stores its byte at `a`, keeps every other byte of RAM and every other field, whatever
`read_selector` holds. The window form needs `write_selector = 0`, which R23 says always holds; with 1 it is
refused by name. -/
def Obligations.MemoryWrite : Prop :=
  ∀ (a : Addr) (v : Byte) (s : State),
    decode (0x3#4 ++ 0x0#4 ++ a ++ v) = .ok (.mwr a v) ∧
    (s.phase = .running → (s.writeSelector = 0#1 ∨ 0x0800#16 ≤ a) →
      ∃ t, exec (.mwr a v) s = .next t ∧ t = { s with ram := t.ram } ∧
        t.ramByte a = v ∧ ∀ b : Addr, b ≠ a → t.ramByte b = s.ramByte b) ∧
    (s.phase = .running → s.writeSelector = 1#1 → a ≤ 0x07FF#16 →
      exec (.mwr a v) s = .refused (.unreachableState (encode (.mwr a v)))) ∧
    (s.phase = .unconfigured → exec (.mwr a v) s = .refused (.notConfigured (encode (.mwr a v)))) ∧
    (s.phase = .failed → exec (.mwr a v) s = .refused (.machineFailed (encode (.mwr a v))))

/-- R102's last corner case, on a canonical RAM image: writing the byte held changes nothing at all. -/
def Obligations.WriteOfHeldByte : Prop :=
  ∀ (a : Addr) (s : State), s.phase = .running → s.writeSelector = 0#1 → s.ram.wf →
    exec (.mwr a (s.ramByte a)) s = .next s

/-- R103: above the window the memory transactions complete, and setting `read_selector` before one is
setting it after. -/
def Obligations.SelectorIrrelevantAboveWindow : Prop :=
  ∀ (a : Addr) (v : Byte) (b : Bit) (s : State) (i : Instr),
    0x0800#16 ≤ a → s.phase = .running → i = .mrd a ∨ i = .mfetch a ∨ i = .mwr a v →
    ∃ t, exec i s = .next t ∧
      exec i { s with readSelector := b } = .next { t with readSelector := b }

/-- R104: a byte written in the window under the ROM overlay is held in RAM and read once the overlay is
off, while reads before that still give the ROM byte. -/
def Obligations.WindowReadWriteIndependence : Prop :=
  ∀ (a : Addr) (v : Byte) (s : State),
    a ≤ 0x07FF#16 → s.phase = .running → s.readSelector = 0#1 → s.writeSelector = 0#1 →
    ∃ t r, exec (.mwr a v) s = .next t ∧ s.rom.bytes[a.toNat]? = some r ∧
      exec (.mrd a) t = .next { t with events := t.events ++ [.rdata r] } ∧
      t.ramByte a = v ∧
      ∃ u, exec (.iowr 0x001A#16 0x01#8) t = .next u ∧
        exec (.mrd a) u = .next { u with events := u.events ++ [.rdata v] }

/-- R57: reads of one address agree across any words that are none of MWR, IOWR to port 0x1A, RESET and
POWERON. -/
def Obligations.ReadsAgreeUntilDisturbed : Prop :=
  ∀ (n : Nat) (s t : State) (a : Addr) (v : Byte),
    s.phase = .running → runSteps n s = .next t →
    (∀ w ∈ s.inbox.take n, isWordOf disturbsReads w = false) →
    exec (.mrd a) s = .next { s with events := s.events ++ [.rdata v] } →
    exec (.mrd a) t = .next { t with events := t.events ++ [.rdata v] }

/-- R64: a byte written is fetched as a data read of it would see it. -/
def Obligations.FetchSeesWrite : Prop :=
  ∀ (a : Addr) (v : Byte) (s : State), s.phase = .running → s.writeSelector = 0#1 →
    ∃ t, exec (.mwr a v) s = .next t ∧
      exec (.mfetch a) t = exec (.mrd a) t ∧
      (0x0800#16 ≤ a ∨ s.readSelector = 1#1 →
        exec (.mfetch a) t = .next { t with events := t.events ++ [.rdata v] }) ∧
      (a ≤ 0x07FF#16 → s.readSelector = 0#1 →
        (∃ r, s.rom.bytes[a.toNat]? = some r ∧
          exec (.mfetch a) t = .next { t with events := t.events ++ [.rdata r] }) ∧
        ∃ u, exec (.iowr 0x001A#16 0x01#8) t = .next u ∧
          exec (.mfetch a) u = .next { u with events := u.events ++ [.rdata v] })

/-- R61: along any run, `ram` and `read_selector` hold what the last word that writes them left, in the
order the words were taken. -/
def Obligations.LastWriteIsHeld : Prop :=
  ∀ (n : Nat) (s t : State), runSteps n s = .next t →
    t.inbox = s.inbox.drop n ∧
    (∀ a : Addr, t.ramByte a = ramAfterWords a (s.inbox.take n) (s.ramByte a)) ∧
    t.readSelector = selectorAfterWords (s.inbox.take n) s.readSelector

/-! ### I/O transactions -/

/-- R120: the port decode, by the low byte of the I/O address alone. -/
def Obligations.PortDecode : Prop :=
  ∀ hi p : Byte,
    (p ≤ 0x03#8 → ioDecode (hi ++ p) = .sio (p.extractLsb' 0 2)) ∧
    (0x08#8 ≤ p → p ≤ 0x0B#8 → ioDecode (hi ++ p) = .ctc1 (p.extractLsb' 0 2)) ∧
    (p = 0x1A#8 → ioDecode (hi ++ p) = .bankSel) ∧
    (0x04#8 ≤ p ∧ p ≤ 0x07#8 ∨ 0x0C#8 ≤ p ∧ p ≤ 0x19#8 ∨ 0x1B#8 ≤ p → ioDecode (hi ++ p) = .unmapped)

/-- R121: IORD in each phase and at each kind of port; a device's byte and a draw are free values. -/
def Obligations.IoRead : Prop :=
  ∀ (hi p : Byte) (s : State),
    decode (0x4#4 ++ 0x0#4 ++ (hi ++ p) ++ 0x00#8) = .ok (.iord (hi ++ p)) ∧
    (s.phase = .running → p ≤ 0x03#8 → exec (.iord (hi ++ p)) s = .next { s with
      events := s.events ++ [.devRead .sio (p.extractLsb' 0 2),
        .rdata (Config.deviceRead s.draws .sio (p.extractLsb' 0 2))],
      draws := s.draws + 1 }) ∧
    (s.phase = .running → 0x08#8 ≤ p → p ≤ 0x0B#8 → exec (.iord (hi ++ p)) s = .next { s with
      events := s.events ++ [.devRead .ctc1 (p.extractLsb' 0 2),
        .rdata (Config.deviceRead s.draws .ctc1 (p.extractLsb' 0 2))],
      draws := s.draws + 1 }) ∧
    (s.phase = .running →
      0x04#8 ≤ p ∧ p ≤ 0x07#8 ∨ 0x0C#8 ≤ p → exec (.iord (hi ++ p)) s = .next { s with
        events := s.events ++ [.rdata (Config.draw s.draws)], draws := s.draws + 1 }) ∧
    (s.phase = .unconfigured → exec (.iord (hi ++ p)) s =
      .refused (.notConfigured (encode (.iord (hi ++ p))))) ∧
    (s.phase = .failed → exec (.iord (hi ++ p)) s =
      .refused (.machineFailed (encode (.iord (hi ++ p)))))

/-- R122: IOWR in each phase and at each kind of port. -/
def Obligations.IoWrite : Prop :=
  ∀ (hi p d : Byte) (s : State),
    decode (0x5#4 ++ 0x0#4 ++ (hi ++ p) ++ d) = .ok (.iowr (hi ++ p) d) ∧
    (s.phase = .running → p ≤ 0x03#8 → exec (.iowr (hi ++ p) d) s = .next { s with
      events := s.events ++ [.devWrite .sio (p.extractLsb' 0 2) d] }) ∧
    (s.phase = .running → 0x08#8 ≤ p → p ≤ 0x0B#8 → exec (.iowr (hi ++ p) d) s = .next { s with
      events := s.events ++ [.devWrite .ctc1 (p.extractLsb' 0 2) d] }) ∧
    (s.phase = .running → p = 0x1A#8 → exec (.iowr (hi ++ p) d) s = .next { s with
      readSelector := d.extractLsb' 0 1 }) ∧
    (s.phase = .running →
      0x04#8 ≤ p ∧ p ≤ 0x07#8 ∨ 0x0C#8 ≤ p ∧ p ≤ 0x19#8 ∨ 0x1B#8 ≤ p →
      exec (.iowr (hi ++ p) d) s = .next s) ∧
    (s.phase = .unconfigured → exec (.iowr (hi ++ p) d) s =
      .refused (.notConfigured (encode (.iowr (hi ++ p) d)))) ∧
    (s.phase = .failed → exec (.iowr (hi ++ p) d) s =
      .refused (.machineFailed (encode (.iowr (hi ++ p) d))))

/-- R37: two I/O addresses with one low byte do the same. That the two IORDs read one byte where the byte is a
free input is the model's choice, not the spec's: both are given the input of the same counter value,
assumption logs 7 and 8. -/
def Obligations.IoAddressHighByteIgnored : Prop :=
  ∀ (p q : Addr) (d : Byte) (s : State), s.phase = .running →
    p.extractLsb' 0 8 = q.extractLsb' 0 8 →
    ∃ t u, exec (.iord p) s = .next t ∧ exec (.iord q) s = .next t ∧
      exec (.iowr p d) s = .next u ∧ exec (.iowr q d) s = .next u

/-- R234: a write to port 0x1A governs the very next transaction. -/
def Obligations.SelectorWriteTakesEffectAtOnce : Prop :=
  ∀ (hi d v : Byte) (a : Addr) (s : State), s.phase = .running →
    ∃ t, exec (.iowr (hi ++ 0x1A#8) d) s = .next t ∧
      t = { s with readSelector := d.extractLsb' 0 1 } ∧
      (a ≤ 0x07FF#16 → d.getLsbD 0 = false → s.rom.bytes[a.toNat]? = some v →
        exec (.mrd a) t = .next { t with events := t.events ++ [.rdata v] }) ∧
      (a ≤ 0x07FF#16 → d.getLsbD 0 = true →
        exec (.mrd a) t = .next { t with events := t.events ++ [.rdata (s.ramByte a)] })

/-- R124: the bank-select write assigns bit 0 of its byte, at every mirror of port 0x1A, and is the only
mutator of `read_selector` among the CPU's transactions. -/
def Obligations.BankSelectWrite : Prop :=
  ∀ s : State,
    (∀ hi d : Byte, s.phase = .running → ∃ t, exec (.iowr (hi ++ 0x1A#8) d) s = .next t ∧
      (d &&& 1#8 = 1#8 → t.readSelector = 1#1) ∧ (d &&& 1#8 = 0#8 → t.readSelector = 0#1) ∧
      t = { s with readSelector := t.readSelector }) ∧
    (∀ (i : Instr) (t : State), i.agent = .cpu → exec i s = .next t →
      t.readSelector ≠ s.readSelector → writesBankSelect i = true)

/-! ### The daisy chain -/

/-- R31. -/
def Obligations.RequestLine : Prop :=
  ∀ s : State, intLine s = true ↔
    ∃ k : Position, s.chain.dev k = .pending ∨ s.chain.dev k = .inService

/-- R32 and R143: the presenter under this hardware's policy, the device an IACK selects. -/
def Obligations.PresenterIsLeastPending : Prop :=
  ∀ s : State, s.cfg.nestedAck = .defaultVector →
    ackSelect s = presenter s ∧
    ((∃ j : Position, s.chain.dev j = .inService) → presenter s = none) ∧
    ((∀ j : Position, s.chain.dev j ≠ .inService) →
      (∀ k : Position, presenter s = some k ↔
        s.chain.dev k = .pending ∧ ∀ j : Position, j < k → s.chain.dev j ≠ .pending) ∧
      (presenter s = none ↔ ∀ k : Position, s.chain.dev k ≠ .pending))

/-- R146's selection under the alternative policy. -/
def Obligations.PreemptingSelection : Prop :=
  ∀ s : State, s.cfg.nestedAck = .preemptHigher →
    presenter s = ackSelect s ∧
    ∀ k : Position, ackSelect s = some k ↔
      s.chain.dev k = .pending ∧ ∀ j : Position, j < k → s.chain.dev j = .idle

/-- R141: RAISE of either device in each phase; only an idle device's state changes, to pending; a position
outside CHAIN makes an illegal word. -/
def Obligations.RaiseRequest : Prop :=
  ∀ (p : Position) (s : State),
    decode (0x8#4 ++ BitVec.ofNat 4 p.val ++ 0x0000#16 ++ 0x00#8) =
      .ok (.raise (BitVec.ofNat 4 p.val)) ∧
    (∀ k : BitVec 4, 2 ≤ k.toNat →
      decode (0x8#4 ++ k ++ 0x0000#16 ++ 0x00#8) = .error .positionOutOfRange) ∧
    (s.phase = .running → ∃ t, exec (.raise (BitVec.ofNat 4 p.val)) s = .next t ∧
      t = { s with chain := t.chain } ∧
      (s.chain.dev p = .idle → t.chain.dev p = .pending) ∧
      (s.chain.dev p ≠ .idle → t = s) ∧
      ∀ j : Position, j ≠ p → t.chain.dev j = s.chain.dev j) ∧
    (s.phase = .unconfigured → exec (.raise (BitVec.ofNat 4 p.val)) s =
      .refused (.notConfigured (encode (.raise (BitVec.ofNat 4 p.val))))) ∧
    (s.phase = .failed → exec (.raise (BitVec.ofNat 4 p.val)) s =
      .refused (.machineFailed (encode (.raise (BitVec.ofNat 4 p.val)))))

/-- R142: WITHDRAW of either device in each phase; only a pending device's state changes, to idle. -/
def Obligations.WithdrawRequest : Prop :=
  ∀ (p : Position) (s : State),
    decode (0x9#4 ++ BitVec.ofNat 4 p.val ++ 0x0000#16 ++ 0x00#8) =
      .ok (.withdraw (BitVec.ofNat 4 p.val)) ∧
    (s.phase = .running → ∃ t, exec (.withdraw (BitVec.ofNat 4 p.val)) s = .next t ∧
      t = { s with chain := t.chain } ∧
      (s.chain.dev p = .pending → t.chain.dev p = .idle) ∧
      (s.chain.dev p ≠ .pending → t = s) ∧
      ∀ j : Position, j ≠ p → t.chain.dev j = s.chain.dev j) ∧
    (s.phase = .unconfigured → exec (.withdraw (BitVec.ofNat 4 p.val)) s =
      .refused (.notConfigured (encode (.withdraw (BitVec.ofNat 4 p.val))))) ∧
    (s.phase = .failed → exec (.withdraw (BitVec.ofNat 4 p.val)) s =
      .refused (.machineFailed (encode (.withdraw (BitVec.ofNat 4 p.val)))))

/-- A transaction on a position outside CHAIN is refused by name (R74 point 3, R207). -/
def Obligations.PositionOutsideChainRefused : Prop :=
  ∀ (k : BitVec 4) (s : State), 2 ≤ k.toNat → s.phase ≠ .failed →
    exec (.raise k) s = .refused (.illegalWord (encode (.raise k))) ∧
    exec (.withdraw k) s = .refused (.illegalWord (encode (.withdraw k)))

/-- R145: IACK in each phase, with a device selected and with none; the device's vector is a free
value. -/
def Obligations.AcknowledgeCycle : Prop :=
  ∀ s : State,
    decode 0x60000000#32 = .ok .iack ∧
    (s.phase = .running → ∀ k, ackSelect s = some k → ∃ t, exec .iack s = .next t ∧
      t = { s with
        chain := t.chain
        events := s.events ++
          [.devAck (chainDevice k), .vector (Config.deviceVector s.draws (chainDevice k))]
        draws := s.draws + 1 } ∧
      t.chain.dev k = .inService ∧ ∀ j : Position, j ≠ k → t.chain.dev j = s.chain.dev j) ∧
    (s.phase = .running → ackSelect s = none → exec .iack s = .next { s with
      events := s.events ++ [.vector s.cfg.defaultVector] }) ∧
    (s.phase = .unconfigured → exec .iack s = .refused (.notConfigured 0x60000000#32)) ∧
    (s.phase = .failed → exec .iack s = .refused (.machineFailed 0x60000000#32))

/-- R147 and R148: RETI in each phase, with a device in service and with none. -/
def Obligations.ReturnSequence : Prop :=
  ∀ s : State,
    decode 0x70000000#32 = .ok .reti ∧
    (s.phase = .running → ∀ j : Position, s.chain.dev j = .inService →
      (∀ i : Position, i < j → s.chain.dev i ≠ .inService) →
      ∃ t, exec .reti s = .next t ∧
        t = { s with chain := t.chain, events := s.events ++ [.devReti (chainDevice j)] } ∧
        t.chain.dev j = .idle ∧ ∀ i : Position, i ≠ j → t.chain.dev i = s.chain.dev i) ∧
    (s.phase = .running → (∀ j : Position, s.chain.dev j ≠ .inService) → exec .reti s = .next s) ∧
    (s.phase = .unconfigured → exec .reti s = .refused (.notConfigured 0x70000000#32)) ∧
    (s.phase = .failed → exec .reti s = .refused (.machineFailed 0x70000000#32))

/-- R149: of two pending devices CTC1 is serviced first, SIO only after the RETI, and the order of the
two RAISEs does not matter. -/
def Obligations.PriorityLaw : Prop :=
  ∀ s : State, s.phase = .running → s.cfg.nestedAck = .defaultVector →
    ((∀ k : Position, s.chain.dev k ≠ .inService) → ∃ a b t,
      exec (.raise 0#4) s = .next a ∧ exec (.raise 1#4) a = .next t ∧
      exec (.raise 1#4) s = .next b ∧ exec (.raise 0#4) b = .next t ∧
      t.chain.dev 0 = .pending ∧ t.chain.dev 1 = .pending) ∧
    (s.chain.dev 0 = .pending → s.chain.dev 1 = .pending → ∃ t u v w,
      exec .iack s = .next t ∧ t.chain.dev 0 = .inService ∧ t.chain.dev 1 = .pending ∧
      .devAck .ctc1 ∈ t.events.drop s.events.length ∧
      exec .iack t = .next u ∧ u.chain = t.chain ∧
      exec .reti u = .next v ∧ v.chain.dev 0 = .idle ∧ v.chain.dev 1 = .pending ∧
      exec .iack v = .next w ∧ w.chain.dev 1 = .inService ∧
      .devAck .sio ∈ w.events.drop v.events.length)

/-- R150: `int_line` after each transaction of the family. A WITHDRAW of a device in service does nothing
(R142), so its clause is about the other two states. -/
def Obligations.RequestLineAfterChainTransactions : Prop :=
  ∀ (p : Position) (s t : State),
    (exec (.raise (BitVec.ofNat 4 p.val)) s = .next t → intLine t = true) ∧
    (exec .iack s = .next t → intLine t = intLine s) ∧
    (exec (.withdraw (BitVec.ofNat 4 p.val)) s = .next t → s.chain.dev p ≠ .inService →
      (intLine t = false ↔ ∀ j : Position, j ≠ p → s.chain.dev j = .idle)) ∧
    (exec .reti s = .next t → ∀ j : Position, s.chain.dev j = .inService →
      (∀ i : Position, i < j → s.chain.dev i ≠ .inService) →
      (intLine t = false ↔ ∀ i : Position, i ≠ j → s.chain.dev i = .idle))

/-- R236: under this hardware's policy a device in service stays there, keeps `int_line` true and makes
every IACK return the default vector, along any run without RETI and RESET. -/
def Obligations.ServiceBlocksAcknowledges : Prop :=
  ∀ (n : Nat) (s t : State) (k : Position),
    s.phase = .running → s.cfg.nestedAck = .defaultVector → s.chain.dev k = .inService →
    runSteps n s = .next t → (∀ w ∈ s.inbox.take n, isWordOf endsServices w = false) →
    t.chain.dev k = .inService ∧ intLine t = true ∧
    exec .iack t = .next { t with events := t.events ++ [.vector s.cfg.defaultVector] }

/-! ### Power-on and reset -/

/-- R171: RESET in each phase. -/
def Obligations.ResetTransaction : Prop :=
  ∀ s : State,
    decode 0xA0000000#32 = .ok .reset ∧
    (s.phase = .running → exec .reset s = .next { s with
      readSelector := 0#1
      writeSelector := 0#1
      chain := Chain.allIdle
      events := s.events ++ [.cpuReset] }) ∧
    (∀ k : Position, Chain.allIdle.dev k = .idle) ∧
    (s.phase = .unconfigured → exec .reset s = .refused (.notConfigured 0xA0000000#32)) ∧
    (s.phase = .failed → exec .reset s = .refused (.machineFailed 0xA0000000#32))

/-- R170: POWERON in each phase, with an image that covers the window and without one. -/
def Obligations.PowerOnTransaction : Prop :=
  ∀ s : State,
    decode 0xB0000000#32 = .ok .poweron ∧
    (s.phase = .unconfigured → ∀ img, s.cfg.romImage = some img → 0x800 ≤ img.length →
      ∃ t, exec .poweron s = .next t ∧ t.rom.bytes = img ∧ (∀ a : Addr, t.ramByte a = 0x00#8) ∧
        t = { s with
          phase := .running
          readSelector := 0#1
          writeSelector := 0#1
          rom := t.rom
          ram := t.ram
          companionRom := s.cfg.companionImage
          chain := Chain.allIdle
          events := s.events ++ [.cpuReset] }) ∧
    (s.phase = .unconfigured → (∀ img, s.cfg.romImage = some img → img.length < 0x800) →
      exec .poweron s = .fault (.configRomMissing (s.cfg.romImage.map List.length)
        { s with phase := .failed })) ∧
    (s.phase = .running → exec .poweron s = .refused (.alreadyConfigured 0xB0000000#32)) ∧
    (s.phase = .failed → exec .poweron s = .refused (.machineFailed 0xB0000000#32))

/-- The values R230 gives `State.reset`. -/
def Obligations.ResetStateValues : Prop :=
  State.reset.phase = .running ∧ State.reset.readSelector = 0#1 ∧ State.reset.writeSelector = 0#1 ∧
  (∀ a : Addr, State.reset.ramByte a = 0x00#8) ∧
  (∀ k : Position, State.reset.chain.dev k = .idle) ∧
  intLine State.reset = false ∧ presenter State.reset = none ∧ State.reset.events = [.cpuReset]

/-- `State.reset` is what POWERON leaves of a block with its parameters, whatever the fields R41 gives no
value held (that it stands after POWERON is the model's reading, assumption log 3). -/
def Obligations.PowerOnLeavesResetState : Prop :=
  ∀ s : State, s.phase = .unconfigured → s.cfg = State.reset.cfg → s.events = [] → s.inbox = [] →
    s.draws = State.reset.draws → exec .poweron s = .next State.reset

/-- R173: a second RESET leaves the state the first left, but for one more `cpu_reset` in the history. -/
def Obligations.ResetIsIdempotent : Prop :=
  ∀ s : State, s.phase = .running →
    ∃ t, exec .reset s = .next t ∧ exec .reset t = .next { t with events := t.events ++ [.cpuReset] }

/-- R174 and R238: RESET keeps every byte of RAM, ends every service and drops `int_line`. -/
def Obligations.ResetKeepsRamEndsServices : Prop :=
  ∀ s : State, s.phase = .running → ∃ t, exec .reset s = .next t ∧
    (∀ a : Addr, t.ramByte a = s.ramByte a) ∧ (∀ k : Position, t.chain.dev k = .idle) ∧
    intLine t = false ∧ presenter t = none

/-- R56 and R231: after RESET and after POWERON `BOOT_VECTOR` lies in the overlay window and the fetch at it
returns the ROM byte there, whatever window address it is. -/
def Obligations.BootFetchReadsRom : Prop :=
  ∀ (s t : State) (i : Instr), i = .reset ∨ i = .poweron → exec i s = .next t →
    t.cfg.bootVector.addr ≤ 0x07FF#16 ∧
    ∃ v, t.rom.bytes[t.cfg.bootVector.addr.toNat]? = some v ∧
      exec t.bootFetch t = .next { t with events := t.events ++ [.rdata v] }

/-- R231: from a reset block on, every window read returns ROM bytes along any run in which no word turns
the overlay off. -/
def Obligations.OverlayStaysOnUntilTurnedOff : Prop :=
  ∀ (n : Nat) (s t : State) (a : Addr),
    s.phase = .running → s.readSelector = 0#1 → runSteps n s = .next t →
    (∀ w ∈ s.inbox.take n, isWordOf turnsOverlayOff w = false) → a ≤ 0x07FF#16 →
    ∃ v, s.rom.bytes[a.toNat]? = some v ∧
      exec (.mrd a) t = .next { t with events := t.events ++ [.rdata v] } ∧
      exec (.mfetch a) t = .next { t with events := t.events ++ [.rdata v] }

/-- R41: what the fields without a value hold before POWERON makes no difference to the state after. -/
def Obligations.PowerOnReadsNoUnsetField : Prop :=
  ∀ s s' t : State, s.phase = .unconfigured → s'.phase = .unconfigured → s.cfg = s'.cfg →
    s.events = s'.events → s.inbox = s'.inbox → s.draws = s'.draws →
    exec .poweron s = .next t → exec .poweron s' = .next t

/-- R203 and R206: the state ConfigRomMissing leaves is failed, and refuses every word. -/
def Obligations.FailedMachineRefusesEverything : Prop :=
  ∀ (s left : State) (n : Option Nat), step s = .fault (.configRomMissing n left) →
    left.phase = .failed ∧
    ∀ (w : Word) (ws : List Word),
      step { left with inbox := w :: ws } = .refused (.machineFailed w)

/-! ### The whole machine -/

/-- R202: before POWERON every other transaction is refused. -/
def Obligations.UnconfiguredRefusals : Prop :=
  ∀ (i : Instr) (s : State), i.wellFormed = true → s.phase = .unconfigured → i ≠ .poweron →
    exec i s = .refused (.notConfigured (encode i))

/-- R201: no transaction of the CPU core or of a device has a fault outcome; POWERON's is the only one. -/
def Obligations.OnlyPowerOnFaults : Prop :=
  ∀ (i : Instr) (s : State), Answer.isFault (exec i s) = true →
    i = .poweron ∧ i.agent = .host ∧ s.phase = .unconfigured

/-- R58 and R208: in a running block every well-formed transaction but POWERON completes. -/
def Obligations.AdmittedTransactionsComplete : Prop :=
  ∀ (i : Instr) (s : State), i.wellFormed = true → i ≠ .poweron → s.phase = .running →
    s.writeSelector = 0#1 → ∃ t, exec i s = .next t ∧ t.phase = .running

/-- R40's writes column. -/
def Obligations.WritersOfEachElement : Prop :=
  ∀ (i : Instr) (s t : State), exec i s = .next t →
    (t.phase ≠ s.phase → i = .poweron) ∧
    (t.readSelector ≠ s.readSelector → writesBankSelect i = true ∨ i = .reset ∨ i = .poweron) ∧
    (t.writeSelector ≠ s.writeSelector → i = .reset ∨ i = .poweron) ∧
    (t.rom ≠ s.rom → i = .poweron) ∧
    (t.ram ≠ s.ram → (∃ a v, i = .mwr a v) ∨ i = .poweron) ∧
    (t.companionRom ≠ s.companionRom → i = .poweron) ∧
    (t.chain ≠ s.chain → (∃ k, i = .raise k ∨ i = .withdraw k) ∨ i = .iack ∨ i = .reti ∨
      i = .reset ∨ i = .poweron) ∧
    t.cfg = s.cfg ∧ t.inbox = s.inbox

/-- R60: along any run from a running block the ROM images stay as they are. -/
def Obligations.RomImagesNeverChange : Prop :=
  ∀ (n : Nat) (s t : State), s.phase = .running → runSteps n s = .next t →
    t.phase = .running ∧ t.rom = s.rom ∧ t.companionRom = s.companionRom ∧ t.cfg = s.cfg

/-- R27 and R60: the companion ROM is never read; a run with another image in its place differs in that
field alone. That both runs take the same free inputs is the model's choice, not the spec's: an input is
given by the counter alone, assumption logs 7 and 8. -/
def Obligations.CompanionRomNeverRead : Prop :=
  ∀ (n : Nat) (s t : State) (img : List Byte), s.phase = .running → runSteps n s = .next t →
    runSteps n { s with companionRom := img } = .next { t with companionRom := img }

/-! ### Invariants of every step -/

/-- The canonical form of RAM, kept by every step. -/
def Obligations.StepKeepsRamCanonical : Prop :=
  ∀ s t : State, RamCanonical s → step s = .next t → RamCanonical t

/-- R23, kept by every step. -/
def Obligations.StepKeepsWritesGoToRam : Prop :=
  ∀ s t : State, WritesGoToRam s → step s = .next t → WritesGoToRam t

/-- R30, kept by every step. -/
def Obligations.StepKeepsOneInService : Prop :=
  ∀ s t : State, OneInService s → step s = .next t → OneInService t

/-- R146's invariant, of either policy, kept by every step. -/
def Obligations.StepKeepsNestedOrder : Prop :=
  ∀ s t : State, NestedInPriorityOrder s → step s = .next t → NestedInPriorityOrder t

/-- The invariants at `State.reset`. -/
def Obligations.InvariantsAtReset : Prop :=
  RamCanonical State.reset ∧ WritesGoToRam State.reset ∧ OneInService State.reset ∧
  NestedInPriorityOrder State.reset
end

