-- ==== Sys2Proof/Laws/State.lean ====
section
/-! SUPPORT. What each named update of State does to each field. -/

namespace Sys2Proof.Machine

variable (s : State)

/-! ### `State.emit` -/

@[simp] theorem State.emit_phase (es : List Event) : (s.emit es).phase = s.phase := rfl
@[simp] theorem State.emit_readSelector (es : List Event) :
    (s.emit es).readSelector = s.readSelector := rfl
@[simp] theorem State.emit_writeSelector (es : List Event) :
    (s.emit es).writeSelector = s.writeSelector := rfl
@[simp] theorem State.emit_rom (es : List Event) : (s.emit es).rom = s.rom := rfl
@[simp] theorem State.emit_ram (es : List Event) : (s.emit es).ram = s.ram := rfl
@[simp] theorem State.emit_companionRom (es : List Event) :
    (s.emit es).companionRom = s.companionRom := rfl
@[simp] theorem State.emit_chain (es : List Event) : (s.emit es).chain = s.chain := rfl
@[simp] theorem State.emit_events (es : List Event) : (s.emit es).events = s.events ++ es := rfl
@[simp] theorem State.emit_cfg (es : List Event) : (s.emit es).cfg = s.cfg := rfl
@[simp] theorem State.emit_inbox (es : List Event) : (s.emit es).inbox = s.inbox := rfl
@[simp] theorem State.emit_draws (es : List Event) : (s.emit es).draws = s.draws := rfl

/-! ### `State.nextDraw` -/

@[simp] theorem State.nextDraw_phase : (s.nextDraw).phase = s.phase := rfl
@[simp] theorem State.nextDraw_readSelector : (s.nextDraw).readSelector = s.readSelector := rfl
@[simp] theorem State.nextDraw_writeSelector : (s.nextDraw).writeSelector = s.writeSelector := rfl
@[simp] theorem State.nextDraw_rom : (s.nextDraw).rom = s.rom := rfl
@[simp] theorem State.nextDraw_ram : (s.nextDraw).ram = s.ram := rfl
@[simp] theorem State.nextDraw_companionRom : (s.nextDraw).companionRom = s.companionRom := rfl
@[simp] theorem State.nextDraw_chain : (s.nextDraw).chain = s.chain := rfl
@[simp] theorem State.nextDraw_events : (s.nextDraw).events = s.events := rfl
@[simp] theorem State.nextDraw_cfg : (s.nextDraw).cfg = s.cfg := rfl
@[simp] theorem State.nextDraw_inbox : (s.nextDraw).inbox = s.inbox := rfl
@[simp] theorem State.nextDraw_draws : (s.nextDraw).draws = s.draws + 1 := rfl

/-! ### `State.setRam` -/

@[simp] theorem State.setRam_phase (a : Addr) (v : Byte) : (s.setRam a v).phase = s.phase := rfl
@[simp] theorem State.setRam_readSelector (a : Addr) (v : Byte) :
    (s.setRam a v).readSelector = s.readSelector := rfl
@[simp] theorem State.setRam_writeSelector (a : Addr) (v : Byte) :
    (s.setRam a v).writeSelector = s.writeSelector := rfl
@[simp] theorem State.setRam_rom (a : Addr) (v : Byte) : (s.setRam a v).rom = s.rom := rfl
@[simp] theorem State.setRam_ram (a : Addr) (v : Byte) :
    (s.setRam a v).ram = s.ram.write a.toNat v := rfl
@[simp] theorem State.setRam_companionRom (a : Addr) (v : Byte) :
    (s.setRam a v).companionRom = s.companionRom := rfl
@[simp] theorem State.setRam_chain (a : Addr) (v : Byte) : (s.setRam a v).chain = s.chain := rfl
@[simp] theorem State.setRam_events (a : Addr) (v : Byte) : (s.setRam a v).events = s.events := rfl
@[simp] theorem State.setRam_cfg (a : Addr) (v : Byte) : (s.setRam a v).cfg = s.cfg := rfl
@[simp] theorem State.setRam_inbox (a : Addr) (v : Byte) : (s.setRam a v).inbox = s.inbox := rfl
@[simp] theorem State.setRam_draws (a : Addr) (v : Byte) : (s.setRam a v).draws = s.draws := rfl

/-! ### `State.setReadSelector` -/

@[simp] theorem State.setReadSelector_phase (b : Bit) : (s.setReadSelector b).phase = s.phase := rfl
@[simp] theorem State.setReadSelector_readSelector (b : Bit) :
    (s.setReadSelector b).readSelector = b := rfl
@[simp] theorem State.setReadSelector_writeSelector (b : Bit) :
    (s.setReadSelector b).writeSelector = s.writeSelector := rfl
@[simp] theorem State.setReadSelector_rom (b : Bit) : (s.setReadSelector b).rom = s.rom := rfl
@[simp] theorem State.setReadSelector_ram (b : Bit) : (s.setReadSelector b).ram = s.ram := rfl
@[simp] theorem State.setReadSelector_companionRom (b : Bit) :
    (s.setReadSelector b).companionRom = s.companionRom := rfl
@[simp] theorem State.setReadSelector_chain (b : Bit) : (s.setReadSelector b).chain = s.chain := rfl
@[simp] theorem State.setReadSelector_events (b : Bit) :
    (s.setReadSelector b).events = s.events := rfl
@[simp] theorem State.setReadSelector_cfg (b : Bit) : (s.setReadSelector b).cfg = s.cfg := rfl
@[simp] theorem State.setReadSelector_inbox (b : Bit) : (s.setReadSelector b).inbox = s.inbox := rfl
@[simp] theorem State.setReadSelector_draws (b : Bit) : (s.setReadSelector b).draws = s.draws := rfl

/-! ### `State.setDev` -/

@[simp] theorem State.setDev_phase (k : Position) (d : DevState) :
    (s.setDev k d).phase = s.phase := rfl
@[simp] theorem State.setDev_readSelector (k : Position) (d : DevState) :
    (s.setDev k d).readSelector = s.readSelector := rfl
@[simp] theorem State.setDev_writeSelector (k : Position) (d : DevState) :
    (s.setDev k d).writeSelector = s.writeSelector := rfl
@[simp] theorem State.setDev_rom (k : Position) (d : DevState) : (s.setDev k d).rom = s.rom := rfl
@[simp] theorem State.setDev_ram (k : Position) (d : DevState) : (s.setDev k d).ram = s.ram := rfl
@[simp] theorem State.setDev_companionRom (k : Position) (d : DevState) :
    (s.setDev k d).companionRom = s.companionRom := rfl
@[simp] theorem State.setDev_chain (k : Position) (d : DevState) :
    (s.setDev k d).chain = s.chain.put k d := rfl
@[simp] theorem State.setDev_events (k : Position) (d : DevState) :
    (s.setDev k d).events = s.events := rfl
@[simp] theorem State.setDev_cfg (k : Position) (d : DevState) : (s.setDev k d).cfg = s.cfg := rfl
@[simp] theorem State.setDev_inbox (k : Position) (d : DevState) :
    (s.setDev k d).inbox = s.inbox := rfl
@[simp] theorem State.setDev_draws (k : Position) (d : DevState) :
    (s.setDev k d).draws = s.draws := rfl

/-! ### `State.setInbox` -/

@[simp] theorem State.setInbox_phase (ws : List Word) : (s.setInbox ws).phase = s.phase := rfl
@[simp] theorem State.setInbox_readSelector (ws : List Word) :
    (s.setInbox ws).readSelector = s.readSelector := rfl
@[simp] theorem State.setInbox_writeSelector (ws : List Word) :
    (s.setInbox ws).writeSelector = s.writeSelector := rfl
@[simp] theorem State.setInbox_rom (ws : List Word) : (s.setInbox ws).rom = s.rom := rfl
@[simp] theorem State.setInbox_ram (ws : List Word) : (s.setInbox ws).ram = s.ram := rfl
@[simp] theorem State.setInbox_companionRom (ws : List Word) :
    (s.setInbox ws).companionRom = s.companionRom := rfl
@[simp] theorem State.setInbox_chain (ws : List Word) : (s.setInbox ws).chain = s.chain := rfl
@[simp] theorem State.setInbox_events (ws : List Word) : (s.setInbox ws).events = s.events := rfl
@[simp] theorem State.setInbox_cfg (ws : List Word) : (s.setInbox ws).cfg = s.cfg := rfl
@[simp] theorem State.setInbox_inbox (ws : List Word) : (s.setInbox ws).inbox = ws := rfl
@[simp] theorem State.setInbox_draws (ws : List Word) : (s.setInbox ws).draws = s.draws := rfl

/-! ### `State.setPhase` -/

@[simp] theorem State.setPhase_phase (p : Phase) : (s.setPhase p).phase = p := rfl
@[simp] theorem State.setPhase_readSelector (p : Phase) :
    (s.setPhase p).readSelector = s.readSelector := rfl
@[simp] theorem State.setPhase_writeSelector (p : Phase) :
    (s.setPhase p).writeSelector = s.writeSelector := rfl
@[simp] theorem State.setPhase_rom (p : Phase) : (s.setPhase p).rom = s.rom := rfl
@[simp] theorem State.setPhase_ram (p : Phase) : (s.setPhase p).ram = s.ram := rfl
@[simp] theorem State.setPhase_companionRom (p : Phase) :
    (s.setPhase p).companionRom = s.companionRom := rfl
@[simp] theorem State.setPhase_chain (p : Phase) : (s.setPhase p).chain = s.chain := rfl
@[simp] theorem State.setPhase_events (p : Phase) : (s.setPhase p).events = s.events := rfl
@[simp] theorem State.setPhase_cfg (p : Phase) : (s.setPhase p).cfg = s.cfg := rfl
@[simp] theorem State.setPhase_inbox (p : Phase) : (s.setPhase p).inbox = s.inbox := rfl
@[simp] theorem State.setPhase_draws (p : Phase) : (s.setPhase p).draws = s.draws := rfl

/-! ### The byte view of RAM -/

@[simp] theorem State.ramByte_emit (es : List Event) (a : Addr) :
    (s.emit es).ramByte a = s.ramByte a := rfl
@[simp] theorem State.ramByte_nextDraw (a : Addr) : s.nextDraw.ramByte a = s.ramByte a := rfl
@[simp] theorem State.ramByte_setReadSelector (b : Bit) (a : Addr) :
    (s.setReadSelector b).ramByte a = s.ramByte a := rfl
@[simp] theorem State.ramByte_setDev (k : Position) (d : DevState) (a : Addr) :
    (s.setDev k d).ramByte a = s.ramByte a := rfl
@[simp] theorem State.ramByte_setInbox (ws : List Word) (a : Addr) :
    (s.setInbox ws).ramByte a = s.ramByte a := rfl

/-! ### The composite updates, field by field where they change one -/

@[simp] theorem resetSequence_phase : (resetSequence s).phase = s.phase := rfl
@[simp] theorem resetSequence_readSelector : (resetSequence s).readSelector = 0#1 := rfl
@[simp] theorem resetSequence_writeSelector : (resetSequence s).writeSelector = 0#1 := rfl
@[simp] theorem resetSequence_rom : (resetSequence s).rom = s.rom := rfl
@[simp] theorem resetSequence_ram : (resetSequence s).ram = s.ram := rfl
@[simp] theorem resetSequence_companionRom : (resetSequence s).companionRom = s.companionRom := rfl
@[simp] theorem resetSequence_chain : (resetSequence s).chain = Chain.allIdle := rfl
@[simp] theorem resetSequence_events : (resetSequence s).events = s.events ++ [.cpuReset] := rfl
@[simp] theorem resetSequence_cfg : (resetSequence s).cfg = s.cfg := rfl
@[simp] theorem resetSequence_inbox : (resetSequence s).inbox = s.inbox := rfl
@[simp] theorem resetSequence_draws : (resetSequence s).draws = s.draws := rfl

variable (r : RomImage)

@[simp] theorem configure_phase : (configure r s).phase = .running := rfl
@[simp] theorem configure_rom : (configure r s).rom = r := rfl
@[simp] theorem configure_ram : (configure r s).ram = [] := rfl
@[simp] theorem configure_companionRom : (configure r s).companionRom = s.cfg.companionImage := rfl
@[simp] theorem configure_events : (configure r s).events = s.events := rfl
@[simp] theorem configure_cfg : (configure r s).cfg = s.cfg := rfl
@[simp] theorem configure_inbox : (configure r s).inbox = s.inbox := rfl
@[simp] theorem configure_draws : (configure r s).draws = s.draws := rfl

end Sys2Proof.Machine
end

