-- ==== Sys2Proof/Laws/Chain.lean ====
section
/-! SUPPORT. The chain's two positions: what a search over them finds, and when two chains are one. -/

namespace Sys2Proof.Machine

theorem positions_eq : positions = [0, 1] := rfl

/-- A position is CTC1's or SIO's. -/
theorem position_cases (k : Position) : k = 0 ∨ k = 1 := by
  revert k; decide

theorem Chain.ext {c d : Chain} (h : ∀ k : Position, c.dev k = d.dev k) : c = d :=
  Vector.ext fun i hi => h ⟨i, hi⟩

/-- Read after write of one position. -/
@[simp] theorem Chain.dev_put (ch : Chain) (k j : Position) (d : DevState) :
    (ch.put k d).dev j = if j = k then d else ch.dev j := by
  rcases position_cases k with rfl | rfl <;> rcases position_cases j with rfl | rfl <;>
    simp [Chain.dev, Chain.put]

@[simp] theorem Chain.dev_allIdle (k : Position) : Chain.allIdle.dev k = .idle := by
  rcases position_cases k with rfl | rfl <;> rfl

/-- The least position in a state, position by position. -/
theorem leastIn_eq (d : DevState) (ch : Chain) :
    leastIn d ch = if ch.dev 0 = d then some 0 else if ch.dev 1 = d then some 1 else none := by
  simp only [leastIn, positions_eq, List.find?_cons, List.find?_nil]
  by_cases h0 : ch.dev 0 = d <;> by_cases h1 : ch.dev 1 = d <;> simp [h0, h1]

/-- "least k with `chain[k]` in the given state" (R32): it is in the state, and none before it is. -/
theorem leastIn_eq_some {d : DevState} {ch : Chain} {k : Position} :
    leastIn d ch = some k ↔ ch.dev k = d ∧ ∀ j : Position, j < k → ch.dev j ≠ d := by
  rw [leastIn_eq]
  rcases position_cases k with rfl | rfl
  · by_cases h0 : ch.dev 0 = d <;> by_cases h1 : ch.dev 1 = d <;> simp [h0, h1]
  · by_cases h0 : ch.dev 0 = d <;> by_cases h1 : ch.dev 1 = d <;> simp [h0, h1]

theorem leastIn_eq_none {d : DevState} {ch : Chain} :
    leastIn d ch = none ↔ ∀ j : Position, ch.dev j ≠ d := by
  rw [leastIn_eq, Fin.forall_fin_two]
  by_cases h0 : ch.dev 0 = d <;> by_cases h1 : ch.dev 1 = d <;> simp [h0, h1]

/-- R32's case split: a device is presented exactly when none is in service and it is the least
pending one. -/
theorem selectDefault_eq_some {ch : Chain} {k : Position} :
    selectDefault ch = some k ↔
      (∀ j : Position, ch.dev j ≠ .inService) ∧ ch.dev k = .pending ∧
        ∀ j : Position, j < k → ch.dev j ≠ .pending := by
  rw [selectDefault, ← leastIn_eq_some (d := .pending), ← leastIn_eq_none]
  cases leastIn .inService ch <;> simp

theorem selectPreempt_eq_some {ch : Chain} {k : Position} :
    selectPreempt ch = some k ↔ ch.dev k = .pending ∧ ∀ j : Position, j < k → ch.dev j = .idle := by
  simp only [selectPreempt, positions_eq, List.find?_cons, List.find?_nil, List.all_cons, List.all_nil]
  rcases position_cases k with rfl | rfl
  · cases h0 : ch.dev 0 <;> cases h1 : ch.dev 1 <;> simp
  · cases h0 : ch.dev 0 <;> cases h1 : ch.dev 1 <;> simp [h0]

/-- Whichever the policy, the selected device is pending. -/
theorem presenter_pending {s : State} {k : Position} (h : presenter s = some k) :
    s.chain.dev k = .pending := by
  rw [presenter] at h
  split at h
  · exact (selectDefault_eq_some.mp h).2.1
  · exact (selectPreempt_eq_some.mp h).1

/-- R31, position by position. -/
theorem intLine_iff (s : State) :
    intLine s = true ↔ ∃ k : Position, s.chain.dev k = .pending ∨ s.chain.dev k = .inService := by
  simp [intLine, positions_eq, Fin.exists_fin_two]

/-- RAISE's chain (R141): one position, from idle to pending. -/
@[simp] theorem raiseRequest_dev (k j : Position) (s : State) :
    (raiseRequest k s).chain.dev j =
      if j = k ∧ s.chain.dev k = .idle then .pending else s.chain.dev j := by
  unfold raiseRequest
  by_cases h : s.chain.dev k = .idle <;> simp [h]

/-- RAISE writes the chain alone (R141). -/
theorem raiseRequest_frame (k : Position) (s : State) :
    raiseRequest k s = { s with chain := (raiseRequest k s).chain } := by
  unfold raiseRequest
  split <;> rfl

/-- WITHDRAW's chain (R142): one position, from pending to idle. -/
@[simp] theorem dropRequest_dev (k j : Position) (s : State) :
    (dropRequest k s).chain.dev j =
      if j = k ∧ s.chain.dev k = .pending then .idle else s.chain.dev j := by
  unfold dropRequest
  by_cases h : s.chain.dev k = .pending <;> simp [h]

/-- WITHDRAW writes the chain alone (R142). -/
theorem dropRequest_frame (k : Position) (s : State) :
    dropRequest k s = { s with chain := (dropRequest k s).chain } := by
  unfold dropRequest
  split <;> rfl

/-- Everything IACK does (R145). -/
theorem acknowledge_cases (s : State) :
    (∃ k, ackSelect s = some k ∧ s.chain.dev k = .pending ∧
      acknowledge s = ((s.setDev k .inService).emit
        [.devAck (chainDevice k), .vector (Config.deviceVector s.draws (chainDevice k))]).nextDraw) ∨
    (ackSelect s = none ∧ acknowledge s = s.emit [.vector s.cfg.defaultVector]) := by
  unfold acknowledge
  cases h : ackSelect s with
  | none => exact .inr ⟨rfl, rfl⟩
  | some k => exact .inl ⟨k, rfl, presenter_pending h, rfl⟩

/-- Everything RETI does (R147, R148). -/
theorem endService_cases (s : State) :
    (∃ j, s.chain.dev j = .inService ∧ (∀ i : Position, i < j → s.chain.dev i ≠ .inService) ∧
      endService s = (s.setDev j .idle).emit [.devReti (chainDevice j)]) ∨
    ((∀ j : Position, s.chain.dev j ≠ .inService) ∧ endService s = s) := by
  unfold endService
  cases h : leastIn .inService s.chain with
  | none => exact .inr ⟨leastIn_eq_none.mp h, rfl⟩
  | some j => exact .inl ⟨j, (leastIn_eq_some.mp h).1, (leastIn_eq_some.mp h).2, rfl⟩

end Sys2Proof.Machine
end

