-- ==== Sys2Proof/Laws/Decode.lean ====
section
/-! SUPPORT. The fields of a packed word, and a word as its fields. -/

namespace Sys2Proof

@[simp] theorem kindField_packWord (k n : BitVec 4) (a : Addr) (d : Byte) :
    kindField (packWord k n a d) = k := by
  apply BitVec.eq_of_getLsbD_eq
  intro i hi
  simp only [kindField, packWord, BitVec.getLsbD_extractLsb', BitVec.getLsbD_append]
  have h1 : ¬ 28 + i < 8 := by omega
  have h2 : ¬ 28 + i - 8 < 16 := by omega
  have h3 : ¬ 28 + i - 8 - 16 < 4 := by omega
  have h4 : 28 + i - 8 - 16 - 4 = i := by omega
  simp [hi, h1, h2, h3, h4]

@[simp] theorem positionField_packWord (k n : BitVec 4) (a : Addr) (d : Byte) :
    positionField (packWord k n a d) = n := by
  apply BitVec.eq_of_getLsbD_eq
  intro i hi
  simp only [positionField, packWord, BitVec.getLsbD_extractLsb', BitVec.getLsbD_append]
  have h1 : ¬ 24 + i < 8 := by omega
  have h2 : ¬ 24 + i - 8 < 16 := by omega
  have h3 : 24 + i - 8 - 16 = i := by omega
  simp [hi, h1, h2, h3]

@[simp] theorem addressField_packWord (k n : BitVec 4) (a : Addr) (d : Byte) :
    addressField (packWord k n a d) = a := by
  apply BitVec.eq_of_getLsbD_eq
  intro i hi
  simp only [addressField, packWord, BitVec.getLsbD_extractLsb', BitVec.getLsbD_append]
  have h1 : ¬ 8 + i < 8 := by omega
  have h2 : 8 + i - 8 = i := by omega
  simp [hi, h1, h2]

@[simp] theorem dataField_packWord (k n : BitVec 4) (a : Addr) (d : Byte) :
    dataField (packWord k n a d) = d := by
  apply BitVec.eq_of_getLsbD_eq
  intro i hi
  simp only [dataField, packWord, BitVec.getLsbD_extractLsb', BitVec.getLsbD_append]
  simp [hi]

/-- A word is its four fields (R70). -/
theorem packWord_fields (w : Word) :
    packWord (kindField w) (positionField w) (addressField w) (dataField w) = w := by
  apply BitVec.eq_of_getLsbD_eq
  intro i hi
  simp only [packWord, kindField, positionField, addressField, dataField,
    BitVec.getLsbD_append, BitVec.getLsbD_extractLsb']
  by_cases h1 : i < 8
  · simp [h1]
  · by_cases h2 : i - 8 < 16
    · have : 8 + (i - 8) = i := by omega
      simp [h1, h2, this]
    · by_cases h3 : i - 8 - 16 < 4
      · have : 24 + (i - 8 - 16) = i := by omega
        simp [h1, h2, h3, this]
      · have h4 : i - 8 - 16 - 4 < 4 := by omega
        have : 28 + (i - 8 - 16 - 4) = i := by omega
        simp [h1, h2, h3, h4, this]

/-- Masking a word masks its fields (R72's match and mask columns). -/
theorem packWord_and (k n k' n' : BitVec 4) (a a' : Addr) (d d' : Byte) :
    packWord k n a d &&& packWord k' n' a' d' =
      packWord (k &&& k') (n &&& n') (a &&& a') (d &&& d') := by
  apply BitVec.eq_of_getLsbD_eq
  intro i hi
  simp only [packWord, BitVec.getLsbD_and, BitVec.getLsbD_append]
  split <;> [rfl; split] <;> [rfl; split] <;> rfl

/-- Two words are one exactly when their fields are. -/
theorem packWord_inj {k n k' n' : BitVec 4} {a a' : Addr} {d d' : Byte} :
    packWord k n a d = packWord k' n' a' d' ↔ k = k' ∧ n = n' ∧ a = a' ∧ d = d' := by
  constructor
  · intro h
    have hk := congrArg kindField h
    have hn := congrArg positionField h
    have ha := congrArg addressField h
    have hd := congrArg dataField h
    simp only [kindField_packWord, positionField_packWord, addressField_packWord,
      dataField_packWord] at hk hn ha hd
    exact ⟨hk, hn, ha, hd⟩
  · rintro ⟨rfl, rfl, rfl, rfl⟩
    rfl

theorem unlessUnused_eq_ok {b : Bool} {i j : Instr} :
    unlessUnused b i = .ok j ↔ b = true ∧ i = j := by
  cases b <;> simp [unlessUnused]

theorem ofPosition_eq_ok {b : Bool} {n : BitVec 4} {i j : Instr} :
    ofPosition b n i = .ok j ↔ b = true ∧ positionInChain n = true ∧ i = j := by
  cases b <;> cases h : positionInChain n <;> simp [ofPosition, h]

end Sys2Proof
end

