-- ==== Sys2Proof/Laws/Memory.lean ====
section
/-! SUPPORT. The RAM image: read after write on any list, and the canonical form that every operation keeps. -/

namespace Sys2Proof.Machine

@[simp] theorem Memory.read_nil (a : Nat) : Memory.read [] a = Config.ramFill := rfl

theorem Memory.read_cons (c : Host.Cell) (m : Memory) (a : Nat) :
    Memory.read (c :: m) a = if c.1 = a then c.2 else m.read a := rfl

theorem Memory.insert_cons (a : Nat) (v : Byte) (c : Host.Cell) (m : Memory) :
    Memory.insert a v (c :: m) = if a < c.1 then (a, v) :: c :: m else c :: Memory.insert a v m := rfl

theorem Memory.erase_cons (c : Host.Cell) (m : Memory) (a : Nat) :
    Memory.erase (c :: m) a = if c.1 = a then m.erase a else c :: m.erase a := by
  by_cases h : c.1 = a <;> simp [Memory.erase, h]

theorem Memory.read_of_not_listed {m : Memory} {a : Nat} (h : ∀ c ∈ m, c.1 ≠ a) :
    m.read a = Config.ramFill := by
  induction m with
  | nil => rfl
  | cons c m ih =>
    rw [Memory.read_cons, if_neg (h c (by simp))]
    exact ih (fun d hd => h d (by simp [hd]))

theorem Memory.read_insert {m : Memory} {a : Nat} (v : Byte) (h : ∀ c ∈ m, c.1 ≠ a) (b : Nat) :
    Memory.read (Memory.insert a v m) b = if b = a then v else m.read b := by
  induction m with
  | nil =>
    by_cases hb : b = a
    · rw [if_pos hb, hb, Memory.insert, Memory.read_cons, if_pos rfl]
    · rw [if_neg hb, Memory.insert, Memory.read_cons, if_neg (Ne.symm hb)]
  | cons c m ih =>
    have ih := ih (fun d hd => h d (by simp [hd]))
    have hc : c.1 ≠ a := h c (by simp)
    rw [Memory.insert_cons]
    by_cases hlt : a < c.1
    · rw [if_pos hlt, Memory.read_cons]
      by_cases hb : b = a
      · rw [if_pos hb.symm, if_pos hb]
      · rw [if_neg (Ne.symm hb), if_neg hb]
    · rw [if_neg hlt, Memory.read_cons, Memory.read_cons, ih]
      by_cases hcb : c.1 = b
      · have hb : b ≠ a := fun e => hc (hcb.trans e)
        rw [if_pos hcb, if_pos hcb, if_neg hb]
      · rw [if_neg hcb, if_neg hcb]

theorem Memory.mem_erase {m : Memory} {a : Nat} {c : Host.Cell} :
    c ∈ m.erase a ↔ c ∈ m ∧ c.1 ≠ a := by
  simp [Memory.erase, List.mem_filter]

theorem Memory.read_erase (m : Memory) (a b : Nat) :
    (m.erase a).read b = if b = a then Config.ramFill else m.read b := by
  induction m with
  | nil => simp [Memory.erase]
  | cons c m ih =>
    rw [Memory.erase_cons, Memory.read_cons]
    by_cases hc : c.1 = a
    · rw [if_pos hc, ih, hc]
      by_cases hb : b = a
      · rw [if_pos hb, if_pos hb]
      · rw [if_neg hb, if_neg hb, if_neg (Ne.symm hb)]
    · rw [if_neg hc, Memory.read_cons, ih]
      by_cases hb : c.1 = b
      · rw [if_pos hb, if_pos hb, if_neg (fun e => hc (hb.trans e))]
      · rw [if_neg hb, if_neg hb]

/-- Read after write, of every list, canonical or not. -/
theorem Memory.read_write (m : Memory) (a b : Nat) (v : Byte) :
    (m.write a v).read b = if b = a then v else m.read b := by
  by_cases hv : v = Config.ramFill
  · rw [Memory.write, if_pos hv, Memory.read_erase, hv]
  · rw [Memory.write, if_neg hv, Memory.read_insert v (fun c hc => (Memory.mem_erase.mp hc).2),
      Memory.read_erase]
    by_cases hb : b = a <;> simp [hb]

theorem Memory.mem_insert {m : Memory} {a : Nat} {v : Byte} {c : Host.Cell} :
    c ∈ Memory.insert a v m ↔ c = (a, v) ∨ c ∈ m := by
  induction m with
  | nil => simp [Memory.insert]
  | cons d m ih =>
    by_cases h : a < d.1 <;> simp [Memory.insert, h, ih, or_left_comm]

theorem Memory.pairwise_insert {m : Memory} {a : Nat} {v : Byte}
    (hm : m.Pairwise (fun c d => c.1 < d.1)) (h : ∀ c ∈ m, c.1 ≠ a) :
    (Memory.insert a v m).Pairwise (fun c d => c.1 < d.1) := by
  induction m with
  | nil => simp [Memory.insert]
  | cons d m ih =>
    have hd := List.pairwise_cons.mp hm
    have hda : d.1 ≠ a := h d (by simp)
    by_cases hlt : a < d.1
    · simp only [Memory.insert, if_pos hlt]
      refine List.pairwise_cons.mpr ⟨fun c hc => ?_, hm⟩
      rcases List.mem_cons.mp hc with rfl | hc
      · exact hlt
      · exact Nat.lt_trans hlt (hd.1 c hc)
    · simp only [Memory.insert, if_neg hlt]
      refine List.pairwise_cons.mpr ⟨fun c hc => ?_, ih hd.2 (fun c hc => h c (by simp [hc]))⟩
      rcases Memory.mem_insert.mp hc with rfl | hc
      · show d.1 < a
        omega
      · exact hd.1 c hc

/-- Erasing keeps the canonical form. -/
theorem Memory.wf_erase {m : Memory} (h : m.wf) (a : Nat) : (m.erase a).wf :=
  ⟨h.1.filter _, fun c hc => h.2 c (Memory.mem_erase.mp hc).1⟩

/-- Writing keeps the canonical form. -/
theorem Memory.wf_write {m : Memory} (h : m.wf) {a : Nat} (ha : a < Config.memBytes) (v : Byte) :
    (m.write a v).wf := by
  by_cases hv : v = Config.ramFill
  · rw [Memory.write, if_pos hv]
    exact Memory.wf_erase h a
  · rw [Memory.write, if_neg hv]
    have he := Memory.wf_erase h a
    refine ⟨Memory.pairwise_insert he.1 (fun c hc => (Memory.mem_erase.mp hc).2), fun c hc => ?_⟩
    rcases Memory.mem_insert.mp hc with rfl | hc
    · exact ⟨ha, hv⟩
    · exact he.2 c hc

/-- The reset memory is canonical. -/
theorem Memory.wf_nil : Memory.wf [] := ⟨List.Pairwise.nil, by simp⟩

/-- Canonical memories that read the same at every address are the same list. -/
theorem Memory.eq_of_read_eq {m n : Memory} (hm : m.wf) (hn : n.wf)
    (h : ∀ a, m.read a = n.read a) : m = n := by
  induction m generalizing n with
  | nil =>
    cases n with
    | nil => rfl
    | cons d n =>
      have := h d.1
      rw [Memory.read_nil, Memory.read, if_pos rfl] at this
      exact absurd this.symm (hn.2 d (by simp)).2
  | cons c m ih =>
    have hcm := List.pairwise_cons.mp hm.1
    cases n with
    | nil =>
      have := h c.1
      rw [Memory.read_nil, Memory.read, if_pos rfl] at this
      exact absurd this (hm.2 c (by simp)).2
    | cons d n =>
      have hdn := List.pairwise_cons.mp hn.1
      have below : ∀ {x : Nat} {l : Memory}, (∀ e ∈ l, x < e.1) → l.read x = Config.ramFill :=
        fun hx => Memory.read_of_not_listed (fun e he => Nat.ne_of_gt (hx e he))
      have hkey : c.1 = d.1 := by
        rcases Nat.lt_trichotomy c.1 d.1 with hlt | heq | hgt
        · have := h c.1
          rw [Memory.read, if_pos rfl, Memory.read, if_neg (Nat.ne_of_gt hlt),
            below (fun e he => Nat.lt_trans hlt (hdn.1 e he))] at this
          exact absurd this (hm.2 c (by simp)).2
        · exact heq
        · have := h d.1
          rw [Memory.read, if_neg (Nat.ne_of_gt hgt), Memory.read, if_pos rfl,
            below (fun e he => Nat.lt_trans hgt (hcm.1 e he))] at this
          exact absurd this.symm (hn.2 d (by simp)).2
      have hval : c.2 = d.2 := by
        have := h c.1
        rwa [Memory.read, if_pos rfl, Memory.read, if_pos hkey.symm] at this
      have htail : m = n := by
        refine ih ⟨hcm.2, fun e he => hm.2 e (by simp [he])⟩ ⟨hdn.2, fun e he => hn.2 e (by simp [he])⟩
          (fun a => ?_)
        by_cases ha : c.1 = a
        · rw [below (fun e he => ha ▸ hcm.1 e he), below (fun e he => ha ▸ hkey ▸ hdn.1 e he)]
        · have := h a
          rwa [Memory.read, if_neg ha, Memory.read, if_neg (hkey ▸ ha)] at this
      rw [htail, Prod.ext hkey hval]

/-- Read after write through the byte view of R54 and R55. -/
@[simp] theorem State.ramByte_setRam (s : State) (a b : Addr) (v : Byte) :
    (s.setRam a v).ramByte b = if b = a then v else s.ramByte b := by
  simp only [State.ramByte, State.setRam_ram, Memory.read_write]
  by_cases h : b = a
  · simp [h]
  · have : b.toNat ≠ a.toNat := fun e => h (BitVec.eq_of_toNat_eq e)
    simp [h, this]

theorem State.wf_setRam {s : State} (h : s.ram.wf) (a : Addr) (v : Byte) : (s.setRam a v).ram.wf :=
  Memory.wf_write h a.isLt v

end Sys2Proof.Machine
end

