-- ==== Sys2Proof/Laws/Exec.lean ====
section
/-! SUPPORT. One inversion lemma per admission and shared operation, and one for a step. -/

namespace Sys2Proof.Machine

@[simp] theorem inRunning_running {i : Instr} {s : State} {body : Answer} (h : s.phase = .running) :
    inRunning i s body = body := by simp [inRunning, h]

/-- A transaction that completes was admitted. -/
theorem inRunning_eq_next {i : Instr} {s t : State} {body : Answer} :
    inRunning i s body = .next t ↔ s.phase = .running ∧ body = .next t := by
  cases h : s.phase <;> simp [inRunning, h]

theorem inRunning_ne_fault {i : Instr} {s : State} {body : Answer} {f : Fault}
    (h : ∀ f, body ≠ .fault f) : inRunning i s body ≠ .fault f := by
  cases hp : s.phase <;> simp [inRunning, hp, h]

theorem admitPosition_eq_next {i : Instr} {k : BitVec 4} {s t : State} {body : Position → Answer} :
    admitPosition i k s body = .next t ↔
      s.phase = .running ∧ ∃ h : k.toNat < Config.chainLen, body ⟨k.toNat, h⟩ = .next t := by
  unfold admitPosition
  split
  · next h => simp [inRunning_eq_next, h]
  · next h => cases hp : s.phase <;> simp [h]

theorem admitPowerOn_eq_next {i : Instr} {s t : State} {body : Answer} :
    admitPowerOn i s body = .next t ↔ s.phase = .unconfigured ∧ body = .next t := by
  cases h : s.phase <;> simp [admitPowerOn, h]

/-- Everything a completed write does (R55). -/
theorem memWrite_eq_next {w : Word} {a : Addr} {v : Byte} {s t : State} :
    memWrite w a v s = .next t ↔
      (Config.windowHi < a ∨ s.writeSelector = 0#1) ∧ t = s.setRam a v := by
  unfold memWrite
  by_cases ha : a ≤ Config.windowHi
  · have : ¬ Config.windowHi < a := BitVec.not_lt.mpr ha
    by_cases hw : s.writeSelector = 0#1 <;> simp [ha, hw, this, @eq_comm _ t]
  · have : Config.windowHi < a := BitVec.not_le.mp ha
    simp [ha, this, @eq_comm _ t]

/-- Everything a completed POWERON does (R170). -/
theorem powerOnSequence_eq_next {s t : State} :
    powerOnSequence s = .next t ↔
      ∃ img, ∃ h : Config.windowBytes ≤ img.length,
        s.cfg.romImage = some img ∧ t = resetSequence (configure ⟨img, h⟩ s) := by
  unfold powerOnSequence
  cases hc : s.cfg.romImage with
  | none => simp [failConfiguration]
  | some img =>
    by_cases h : Config.windowBytes ≤ img.length
    · simp only [dif_pos h, Host.Outcome.next.injEq, Option.some.injEq]
      constructor
      · rintro rfl; exact ⟨img, h, rfl, rfl⟩
      · rintro ⟨img', h', rfl, rfl⟩; rfl
    · simp only [dif_neg h, failConfiguration, Option.some.injEq, reduceCtorEq, false_iff]
      rintro ⟨img', h', rfl, -⟩
      exact h h'

/-- What a completed transaction can have done, constructor by constructor. -/
theorem exec_eq_next {i : Instr} {s t : State} (h : exec i s = .next t) :
    (s.phase = .running ∧
      ((∃ a, (i = .mrd a ∨ i = .mfetch a) ∧ t = readCycle a s) ∨
       (∃ a v, i = .mwr a v ∧ (Config.windowHi < a ∨ s.writeSelector = 0#1) ∧ t = s.setRam a v) ∨
       (∃ p, i = .iord p ∧
          ((∃ dev off, t = devReadCycle dev off s) ∨ t = drawCycle s)) ∨
       (∃ p v, i = .iowr p v ∧
          ((∃ dev off, t = devWriteCycle dev off v s) ∨
           (ioDecode p = .bankSel ∧ t = s.setReadSelector (selectorBit v)) ∨ t = s)) ∨
       (i = .iack ∧ t = acknowledge s) ∨
       (i = .reti ∧ t = endService s) ∨
       (∃ k p, i = .raise k ∧ p.val = k.toNat ∧ t = raiseRequest p s) ∨
       (∃ k p, i = .withdraw k ∧ p.val = k.toNat ∧ t = dropRequest p s) ∨
       (i = .reset ∧ t = resetSequence s))) ∨
    (s.phase = .unconfigured ∧ i = .poweron ∧
      ∃ img, ∃ h : Config.windowBytes ≤ img.length,
        s.cfg.romImage = some img ∧ t = resetSequence (configure ⟨img, h⟩ s)) := by
  cases i with
  | mrd a =>
    obtain ⟨hp, h⟩ := inRunning_eq_next.mp h
    cases h; exact .inl ⟨hp, .inl ⟨a, .inl rfl, rfl⟩⟩
  | mfetch a =>
    obtain ⟨hp, h⟩ := inRunning_eq_next.mp h
    cases h; exact .inl ⟨hp, .inl ⟨a, .inr rfl, rfl⟩⟩
  | mwr a v =>
    obtain ⟨hp, h⟩ := inRunning_eq_next.mp h
    obtain ⟨hw, ht⟩ := memWrite_eq_next.mp h
    exact .inl ⟨hp, .inr (.inl ⟨a, v, rfl, hw, ht⟩)⟩
  | iord p =>
    obtain ⟨hp, h⟩ := inRunning_eq_next.mp h
    refine .inl ⟨hp, .inr (.inr (.inl ⟨p, rfl, ?_⟩))⟩
    split at h <;> cases h
    · exact .inl ⟨_, _, rfl⟩
    · exact .inl ⟨_, _, rfl⟩
    · exact .inr rfl
    · exact .inr rfl
  | iowr p v =>
    obtain ⟨hp, h⟩ := inRunning_eq_next.mp h
    refine .inl ⟨hp, .inr (.inr (.inr (.inl ⟨p, v, rfl, ?_⟩)))⟩
    split at h <;> cases h
    · exact .inl ⟨_, _, rfl⟩
    · exact .inl ⟨_, _, rfl⟩
    · next hd => exact .inr (.inl ⟨hd, rfl⟩)
    · exact .inr (.inr rfl)
  | iack =>
    obtain ⟨hp, h⟩ := inRunning_eq_next.mp h
    cases h; exact .inl ⟨hp, .inr (.inr (.inr (.inr (.inl ⟨rfl, rfl⟩))))⟩
  | reti =>
    obtain ⟨hp, h⟩ := inRunning_eq_next.mp h
    cases h; exact .inl ⟨hp, .inr (.inr (.inr (.inr (.inr (.inl ⟨rfl, rfl⟩)))))⟩
  | raise k =>
    have h : admitPosition (.raise k) k s (fun p => .next (raiseRequest p s)) = .next t := h
    obtain ⟨hp, hk, h⟩ := admitPosition_eq_next.mp h
    cases h
    exact .inl ⟨hp, .inr (.inr (.inr (.inr (.inr (.inr (.inl ⟨k, _, rfl, rfl, rfl⟩))))))⟩
  | withdraw k =>
    have h : admitPosition (.withdraw k) k s (fun p => .next (dropRequest p s)) = .next t := h
    obtain ⟨hp, hk, h⟩ := admitPosition_eq_next.mp h
    cases h
    exact .inl ⟨hp, .inr (.inr (.inr (.inr (.inr (.inr (.inr (.inl ⟨k, _, rfl, rfl, rfl⟩)))))))⟩
  | reset =>
    obtain ⟨hp, h⟩ := inRunning_eq_next.mp h
    cases h
    exact .inl ⟨hp, .inr (.inr (.inr (.inr (.inr (.inr (.inr (.inr ⟨rfl, rfl⟩)))))))⟩
  | poweron =>
    obtain ⟨hp, h⟩ := admitPowerOn_eq_next.mp h
    exact .inr ⟨hp, rfl, powerOnSequence_eq_next.mp h⟩

/-- What the interface hands to a step (R207). -/
theorem takeWord_eq_perform {s t : State} {i : Instr} :
    takeWord s = .perform i t ↔
      ∃ w ws, s.inbox = w :: ws ∧ s.phase ≠ .failed ∧ decode w = .ok i ∧ t = s.setInbox ws := by
  unfold takeWord
  cases hin : s.inbox with
  | nil => simp
  | cons w ws =>
    by_cases hp : s.phase = .failed
    · simp [hp]
    · cases hd : decode w <;> simp [hp, hd, eq_comm]

/-- A step that answers a next state either found no word or performed one decoded transaction. -/
theorem step_eq_next {s t : State} (h : step s = .next t) :
    (s.inbox = [] ∧ t = s) ∨
    ∃ w ws i, s.inbox = w :: ws ∧ s.phase ≠ .failed ∧ decode w = .ok i ∧
      exec i (s.setInbox ws) = .next t := by
  unfold step at h
  split at h
  · next hid =>
    cases h
    cases hin : s.inbox with
    | nil => exact .inl ⟨rfl, rfl⟩
    | cons w ws =>
      simp only [takeWord, hin] at hid
      split at hid <;> [skip; split at hid] <;> cases hid
  · cases h
  · next i u hp =>
    obtain ⟨w, ws, hin, hph, hd, rfl⟩ := takeWord_eq_perform.mp hp
    exact .inr ⟨w, ws, i, hin, hph, hd, h⟩

end Sys2Proof.Machine
end

