-- ==== Sys2Proof/Laws/PerInstr.lean ====
section
/-! SUPPORT. The family FieldUse: for every transaction, the `K` field of its word is R71's kind and every field its
row of R72 does not use is zero. -/

namespace Sys2Proof.Laws.FieldUse

/-- The `fields used` column of R71, `N`, `A`, `D`. -/
def usedFields : Instr → Bool × Bool × Bool
  | .mrd _ => (false, true, false)
  | .mfetch _ => (false, true, false)
  | .mwr _ _ => (false, true, true)
  | .iord _ => (false, true, false)
  | .iowr _ _ => (false, true, true)
  | .iack => (false, false, false)
  | .reti => (false, false, false)
  | .raise _ => (true, false, false)
  | .withdraw _ => (true, false, false)
  | .reset => (false, false, false)
  | .poweron => (false, false, false)

/-- R71 and R72 of one transaction's word. -/
def Statement (i : Instr) : Prop :=
  kindField (encode i) = i.kind ∧
  ((usedFields i).1 = false → positionField (encode i) = 0#4) ∧
  ((usedFields i).2.1 = false → addressField (encode i) = 0#16) ∧
  ((usedFields i).2.2 = false → dataField (encode i) = 0#8)

theorem mrd (a : Addr) : Statement (.mrd a) := by
  simp [Statement, usedFields, encode, Instr.kind]
theorem mfetch (a : Addr) : Statement (.mfetch a) := by
  simp [Statement, usedFields, encode, Instr.kind]
theorem mwr (a : Addr) (d : Byte) : Statement (.mwr a d) := by
  simp [Statement, usedFields, encode, Instr.kind]
theorem iord (a : Addr) : Statement (.iord a) := by
  simp [Statement, usedFields, encode, Instr.kind]
theorem iowr (a : Addr) (d : Byte) : Statement (.iowr a d) := by
  simp [Statement, usedFields, encode, Instr.kind]
theorem iack : Statement .iack := by
  simp [Statement, encode, Instr.kind]
theorem reti : Statement .reti := by
  simp [Statement, encode, Instr.kind]
theorem raise (k : BitVec 4) : Statement (.raise k) := by
  simp [Statement, usedFields, encode, Instr.kind]
theorem withdraw (k : BitVec 4) : Statement (.withdraw k) := by
  simp [Statement, usedFields, encode, Instr.kind]
theorem reset : Statement .reset := by
  simp [Statement, encode, Instr.kind]
theorem poweron : Statement .poweron := by
  simp [Statement, encode, Instr.kind]

end Sys2Proof.Laws.FieldUse
end

