-- ==== Sys2Proof/Laws/Run.lean ====
section
/-! SUPPORT. Runs: the one induction over the words a run takes, packaged once. -/

namespace Sys2Proof.Machine

@[simp] theorem runSteps_zero (s : State) : runSteps 0 s = .next s := rfl

/-- A run that completes completes its first step. -/
theorem runSteps_succ_eq_next {n : Nat} {s t : State} :
    runSteps (n + 1) s = .next t ↔ ∃ u, step s = .next u ∧ runSteps n u = .next t := by
  have key : ∀ o : Answer, step s = o → (runSteps (n + 1) s = .next t ↔
      ∃ u, o = .next u ∧ runSteps n u = .next t) := fun o ho => by
    have hs : Sys2Proof.core.step s = o := ho
    cases o <;> simp [runSteps, Host.Core.run, hs]
  exact key _ rfl

/-- No transaction touches the words still to come. -/
theorem exec_inbox {i : Instr} {s t : State} (h : exec i s = .next t) : t.inbox = s.inbox := by
  rcases exec_eq_next h with ⟨-, h⟩ | ⟨-, -, img, hi, -, rfl⟩
  · rcases h with ⟨a, -, rfl⟩ | ⟨a, v, -, -, rfl⟩ | ⟨p, -, (⟨dev, off, rfl⟩ | rfl)⟩ |
      ⟨p, v, -, (⟨dev, off, rfl⟩ | ⟨-, rfl⟩ | rfl)⟩ | ⟨-, rfl⟩ | ⟨-, rfl⟩ | ⟨k, p, -, -, rfl⟩ |
      ⟨k, p, -, -, rfl⟩ | ⟨-, rfl⟩
    · rfl
    · rfl
    · rfl
    · rfl
    · rfl
    · rfl
    · rfl
    · rcases acknowledge_cases s with ⟨k, -, -, h⟩ | ⟨-, h⟩ <;> rw [h] <;> rfl
    · rcases endService_cases s with ⟨k, -, -, h⟩ | ⟨-, h⟩ <;> rw [h]; rfl
    · rw [raiseRequest_frame]
    · rw [dropRequest_frame]
    · rfl
  · rfl

/-- Induction over a run: `P s t ws` of the start, the end and the words taken in between holds of the
empty run and is carried back over each performed transaction. -/
theorem runSteps_induction {P : State → State → List Word → Prop} (refl : ∀ s, P s s [])
    (perform : ∀ (s : State) (w : Word) (ws : List Word) (i : Instr) (u t : State) (l : List Word),
      s.inbox = w :: ws → decode w = .ok i → exec i (s.setInbox ws) = .next u → P u t l →
      P s t (w :: l)) :
    ∀ {n : Nat} {s t : State}, runSteps n s = .next t → P s t (s.inbox.take n) := by
  intro n
  induction n with
  | zero => intro s t h; cases h; simpa using refl s
  | succ n ih =>
    intro s t h
    obtain ⟨u, hu, hr⟩ := runSteps_succ_eq_next.mp h
    rcases step_eq_next hu with ⟨hin, rfl⟩ | ⟨w, ws, i, hin, -, hd, he⟩
    · simpa [hin] using ih hr
    · have hp := ih hr
      rw [exec_inbox he, State.setInbox_inbox] at hp
      rw [hin, List.take_succ_cons]
      exact perform s w ws i u t _ hin hd he hp

end Sys2Proof.Machine
end

