-- ==== Sys2Proof/Tests/Slice0.lean ====
section
/-! SUPPORT. Tests whose expected results are the vectors of spec/95_test_vectors.md (their numbers stand in the
comments) or are worked out by hand from the rules, and a witness for the hypotheses of each statement. -/

namespace Sys2Proof.Tests

open Sys2Proof Sys2Proof.Machine

/-! ### Fixtures of 95_test_vectors.md -/

/-- `ROMT`: `rom[a] = a[7:0] XOR 0xA5`. -/
@[irreducible] def romT : List Byte := (List.range 0x800).map (fun a => BitVec.ofNat 8 a ^^^ 0xA5#8)

theorem romT_length : romT.length = 0x800 := by unfold romT; simp

theorem romT_covers : Config.windowBytes ≤ romT.length := by rw [romT_length]

def imageT : RomImage := ⟨romT, romT_covers⟩

def cfgT : Params :=
  { nestedAck := .defaultVector, romImage := some romT, companionImage := [0x11#8, 0x22#8],
    defaultVector := 0xFF#8, bootVector := ⟨0x0000#16, by decide⟩ }

/-- `S0`, the state after POWERON with `ROMT`, its events not counted. -/
def s0 : State :=
  { phase := .running, readSelector := 0#1, writeSelector := 0#1,
    rom := imageT, ram := [], companionRom := [0x11#8, 0x22#8],
    chain := #v[.idle, .idle], events := [], cfg := cfgT, inbox := [], draws := 0 }

/-- `S0` with other chain states. -/
def s0ch (a b : DevState) : State := { s0 with chain := #v[a, b] }

/-- The block under NESTED_ACK_POLICY = `preempt_higher`. -/
def preempting (s : State) : State := { s with cfg := { cfgT with nestedAck := .preemptHigher } }

/-- A block before POWERON with the given image. -/
def off (img : Option (List Byte)) : State :=
  { s0 with phase := .unconfigured, cfg := { cfgT with romImage := img } }

/-- A block after ConfigRomMissing. -/
def dead : State := { s0 with phase := .failed }

/-- One step on the word `w`. -/
def stepOn (s : State) (w : Word) : Answer := step { s with inbox := [w] }

/-- What of the next state `f` shows, if the step has one. -/
def shows {α : Type} (a : Answer) (f : State → α) : Option α :=
  match a with
  | .next t => some (f t)
  | .fault _ => none
  | .refused _ => none

/-- Why the step refuses, if it does. -/
def refusal (a : Answer) : Option Refusal :=
  match a with
  | .next _ => none
  | .fault _ => none
  | .refused r => some r

/-- What the step's fault records, and the phase it leaves. -/
def faulted (a : Answer) : Option (Option Nat × Phase) :=
  match a with
  | .next _ => none
  | .fault (.configRomMissing n left) => some (n, left.phase)
  | .refused _ => none

/-! ### Words: one of each row, and the ill-formed ones (E1 to E12) -/

theorem test_decode_mrd : decode 0x1007FF00#32 = .ok (.mrd 0x07FF#16) := by decide
theorem test_decode_mfetch : decode 0x20080000#32 = .ok (.mfetch 0x0800#16) := by decide
theorem test_decode_mwr : decode 0x30FFFFE1#32 = .ok (.mwr 0xFFFF#16 0xE1#8) := by decide
theorem test_decode_iord : decode 0x40000200#32 = .ok (.iord 0x0002#16) := by decide
theorem test_decode_iowr : decode 0x50000B47#32 = .ok (.iowr 0x000B#16 0x47#8) := by decide
theorem test_decode_iack : decode 0x60000000#32 = .ok .iack := by decide
theorem test_decode_reti : decode 0x70000000#32 = .ok .reti := by decide
theorem test_decode_raise : decode 0x81000000#32 = .ok (.raise 1#4) := by decide
theorem test_decode_withdraw : decode 0x91000000#32 = .ok (.withdraw 1#4) := by decide
theorem test_decode_reset : decode 0xA0000000#32 = .ok .reset := by decide
theorem test_decode_poweron : decode 0xB0000000#32 = .ok .poweron := by decide
theorem test_reserved_kinds : decode 0x00000000#32 = .error .reservedKind ∧
    decode 0xC0000000#32 = .error .reservedKind ∧ decode 0xFFFFFFFF#32 = .error .reservedKind := by
  decide
theorem test_unused_fields : decode 0x10000001#32 = .error .unusedFieldNonzero ∧
    decode 0x11000000#32 = .error .unusedFieldNonzero ∧
    decode 0x60000001#32 = .error .unusedFieldNonzero ∧
    decode 0x3F000000#32 = .error .unusedFieldNonzero ∧
    decode 0xA0000001#32 = .error .unusedFieldNonzero := by decide
theorem test_position_out_of_range : decode 0x82000000#32 = .error .positionOutOfRange ∧
    decode 0x8F000000#32 = .error .positionOutOfRange ∧
    decode 0x92000000#32 = .error .positionOutOfRange := by decide
theorem test_ill_formed_raise : (Instr.raise 2#4).wellFormed = false := by decide
theorem test_ill_formed_withdraw : (Instr.withdraw 15#4).wellFormed = false := by decide
theorem test_table_word : decodeTableWord 32 0x5000FF01 = some (.iowr 0x00FF#16 0x01#8) := by decide
theorem test_first_after_reset :
    shows (step (State.reset.withFetchWord 32 0x50001A01)) State.readSelector = some 1#1 := by decide

theorem test_boot_vector_above_window_refused : ¬ ∃ b : BootVector, b.addr = 0x0800#16 :=
  fun ⟨b, h⟩ => absurd (h ▸ b.inWindow) (by decide)

/-! ### Memory: M2, M3, M6, M11, M12, and W1 -/

theorem test_mrd_window_top : shows (stepOn s0 0x1007FF00#32) State.events = some [.rdata 0x5A#8] := by
  decide +kernel
theorem test_mrd_above_window : shows (stepOn s0 0x10080000#32) State.events = some [.rdata 0x00#8] := by
  decide
theorem test_mfetch_rom : shows (stepOn s0 0x20000000#32) State.events = some [.rdata 0xA5#8] := by
  decide +kernel
theorem test_mfetch_ram : shows (stepOn { s0 with readSelector := 1#1, ram := [(0, 0xAA#8)] }
    0x20000000#32) State.events = some [.rdata 0xAA#8] := by decide
theorem test_mwr_top_byte : shows (stepOn s0 0x30FFFFFF#32) State.ram = some [(0xFFFF, 0xFF#8)] := by
  decide
theorem test_mwr_is_not_io : shows (stepOn s0 0x30001A01#32)
    (fun t => (t.ram, t.readSelector)) = some ([(0x1A, 0x01#8)], 0#1) := by decide

/-! ### I/O: I3, I5, I8, I10 -/

theorem test_iord_device : shows (stepOn s0 0x40000200#32) State.events =
    some [.devRead .sio 2#2, .rdata (Config.deviceRead 0 .sio 2#2)] := by rfl
theorem test_iord_bank_port : shows (stepOn { s0 with readSelector := 1#1 } 0x40001A00#32)
    State.readSelector = some 1#1 := by decide
theorem test_iowr_bit_clear : shows (stepOn { s0 with readSelector := 1#1 } 0x50001AFE#32)
    State.readSelector = some 0#1 := by decide
theorem test_iowr_mirror : shows (stepOn s0 0x50121A01#32) State.readSelector = some 1#1 := by decide

/-! ### The daisy chain: V2, V3, V4, V7, V8, V11, V13, V15, and V11 under `preempt_higher` -/

theorem test_raise_pending : shows (stepOn (s0ch .idle .pending) 0x81000000#32) State.chain =
    some #v[.idle, .pending] := by decide
theorem test_raise_other : shows (stepOn (s0ch .idle .pending) 0x80000000#32) State.chain =
    some #v[.pending, .pending] := by decide
theorem test_iack_priority : shows (stepOn (s0ch .pending .pending) 0x60000000#32)
    (fun t => (t.chain, t.events)) = some (#v[.inService, .pending],
      [.devAck .ctc1, .vector (Config.deviceVector 0 .ctc1)]) := by rfl
theorem test_iack_nested :
    shows (stepOn (s0ch .pending .inService) 0x60000000#32) (fun t => (t.chain, t.events)) =
      some (#v[.pending, .inService], [.vector 0xFF#8]) ∧
    shows (stepOn (preempting (s0ch .pending .inService)) 0x60000000#32) State.chain =
      some #v[.inService, .inService] := by decide
theorem test_reti :
    shows (stepOn (s0ch .inService .pending) 0x70000000#32) (fun t => (t.chain, t.events)) =
      some (#v[.idle, .pending], [.devReti .ctc1]) ∧
    shows (stepOn (preempting (s0ch .inService .inService)) 0x70000000#32) State.chain =
      some #v[.idle, .inService] := by decide
theorem test_reti_none : shows (stepOn s0 0x70000000#32) State.events = some [] := by decide
theorem test_withdraw_in_service : shows (stepOn (s0ch .inService .pending) 0x90000000#32)
    State.chain = some #v[.inService, .pending] := by decide
theorem test_withdraw_pending : shows (stepOn (s0ch .pending .idle) 0x90000000#32) intLine =
    some false := by decide

/-! ### Power-on and reset: C1, C2, C5, C6 to C9, E13, E14 -/

theorem test_reset : shows (stepOn { s0ch .inService .pending with
      readSelector := 1#1, ram := [(0, 0xAA#8)] } 0xA0000000#32)
    (fun t => (t.readSelector, t.ram, t.chain, t.events)) =
    some (0#1, [(0, 0xAA#8)], #v[.idle, .idle], [.cpuReset]) := by decide
theorem test_poweron : shows (stepOn (off (some (romT ++ [0x77#8]))) 0xB0000000#32)
    (fun t => (t.phase, t.ram, t.events, t.companionRom)) =
    some (.running, [], [.cpuReset], [0x11#8, 0x22#8]) := by decide +kernel
theorem test_poweron_without_rom :
    faulted (stepOn (off (some (romT.take 0x7FF))) 0xB0000000#32) = some (some 0x7FF, .failed) ∧
    faulted (stepOn (off none) 0xB0000000#32) = some (none, .failed) := by decide +kernel
theorem test_poweron_twice : refusal (stepOn s0 0xB0000000#32) = some (.alreadyConfigured 0xB0000000#32) := by
  decide
theorem test_before_poweron : refusal (stepOn (off none) 0x10000000#32) =
    some (.notConfigured 0x10000000#32) := by decide
theorem test_illegal_before_poweron : refusal (stepOn (off none) 0x00000000#32) =
    some (.illegalWord 0x00000000#32) := by decide
theorem test_illegal_after_failure : refusal (stepOn dead 0x00000000#32) =
    some (.machineFailed 0x00000000#32) := by decide
theorem test_reset_after_failure : refusal (stepOn dead 0xA0000000#32) =
    some (.machineFailed 0xA0000000#32) := by decide
theorem test_unreachable_selector : refusal (stepOn { s0 with writeSelector := 1#1 } 0x3007FF01#32) =
    some (.unreachableState 0x3007FF01#32) := by decide

/-! ### The assembly of R76 and R77 -/

theorem test_assemble : assemble ["SELRAM".toList, "  ; a comment".toList, "NOP".toList,
    "MWR 0x001A, 1".toList] = .ok [0x50001A01#32, 0x30001A01#32] := by decide
theorem test_assemble_errors : assembleLine "mrd 0".toList = .error .unknownMnemonic ∧
    assembleLine "MRD".toList = .error .operandCount ∧
    assembleLine "MRD 0x".toList = .error .badOperand ∧
    assembleLine "MWR 0, 256".toList = .error .doesNotFit := by decide

/-! ### Witnesses: for each statement with hypotheses, states and operands that meet them, at the ends of
the ranges where clauses meet. -/

/-- `s` with words to take. -/
def withWords (s : State) (ws : List Word) : State := { s with inbox := ws }

theorem none_of (p : Instr → Bool) (ws : List Word) (h : ws.all (fun w => !isWordOf p w) = true) :
    ∀ w ∈ ws, isWordOf p w = false := by simpa using h

theorem witness_DecodeOfEncode : (Instr.raise 1#4).wellFormed = true ∧
    (Instr.withdraw 0#4).wellFormed = true ∧ (Instr.mwr 0xFFFF#16 0xFF#8).wellFormed = true := by decide
theorem witness_EncodeOfDecode : decode 0x91000000#32 = .ok (.withdraw 1#4) := by decide
theorem witness_DecodingFollowsOpcodeTable :
    (∃ r ∈ opcodeRows, r.covers 0x81000000#32) ∧ ¬ ∃ r ∈ opcodeRows, r.covers 0x82000000#32 := by decide
theorem witness_IllegalWordsRefused : IllegalCause 0x00000000#32 ∧ IllegalCause 0xC0000000#32 ∧
    IllegalCause 0x10000001#32 ∧ IllegalCause 0x82000000#32 ∧ ¬ IllegalCause 0x81000000#32 ∧
    ¬ IllegalCause 0xB0000000#32 ∧ s0.phase ≠ .failed ∧ (off none).phase ≠ .failed :=
  ⟨by decide, by decide, by decide, by decide, by decide, by decide, by decide, by decide⟩
theorem witness_PseudoTransactions : s0.phase = .running ∧
    Instr.iowr 0x001A#16 0x00#8 ∈ Pseudo.selRom.expand ∧
    Instr.iowr 0x001A#16 0x01#8 ∈ Pseudo.selRam.expand := by decide
theorem witness_StepRunsDecodedTransaction : (withWords s0 [0x1007FF00#32]).inbox = [0x1007FF00#32] ∧
    decode 0x1007FF00#32 = .ok (.mrd 0x07FF#16) := by decide
theorem witness_StepWithoutWord : s0.inbox = [] := by decide
theorem witness_CheckOrder : dead.phase = .failed ∧ decode 0x00000000#32 = .error .reservedKind ∧
    (off none).phase = .unconfigured ∧ decode 0x10000000#32 = .ok (.mrd 0x0000#16) ∧
    s0.phase = .running ∧ decode 0xB0000000#32 = .ok .poweron ∧
    decode 0x3007FF01#32 = .ok (.mwr 0x07FF#16 0x01#8) ∧ (0x07FF#16 : Addr) ≤ 0x07FF#16 ∧
    (off none).cfg.romImage = none := by decide
theorem witness_CheckOrder_short : ∀ img, (off (some (romT.take 0x7FF))).cfg.romImage = some img →
    img.length < 0x800 := by
  intro img h
  rw [← Option.some.inj h, List.length_take]
  omega
theorem witness_MemoryRead : s0.phase = .running ∧ (off none).phase = .unconfigured ∧
    dead.phase = .failed ∧ (0x07FF#16 : Addr) ≤ 0x07FF#16 ∧ ¬ (0x0800#16 : Addr) ≤ 0x07FF#16 ∧
    (0x0800#16 : Addr) ≤ 0x0800#16 ∧ ¬ (0x0800#16 : Addr) ≤ 0x07FF#16 ∧
    s0.readSelector = 0#1 ∧ { s0 with readSelector := 1#1 }.readSelector = 1#1 := by decide
theorem witness_ReadsAs : ReadsAs s0 0x07FF#16 0x5A#8 ∧ ReadsAs s0 0x0800#16 0x00#8 ∧
    ReadsAs { s0 with readSelector := 1#1 } 0x07FF#16 0x00#8 := by decide +kernel
theorem witness_MemoryWrite : s0.phase = .running ∧ s0.writeSelector = 0#1 ∧
    ({ s0 with writeSelector := 1#1 } : State).writeSelector = 1#1 ∧ (0x07FF#16 : Addr) ≤ 0x07FF#16 ∧
    (0x0800#16 : Addr) ≤ 0x0800#16 ∧ (0x07FF#16 : Addr) ≠ 0x0800#16 := by decide
theorem witness_WriteOfHeldByte : s0.phase = .running ∧ s0.writeSelector = 0#1 ∧
    ({ s0 with ram := [(0, 0xAA#8), (0xFFFF, 0x01#8)] } : State).ram.wf := by decide
theorem witness_SelectorIrrelevantAboveWindow : (0x0800#16 : Addr) ≤ 0x0800#16 ∧ s0.phase = .running := by
  decide
theorem witness_WindowReadWriteIndependence : (0x0123#16 : Addr) ≤ 0x07FF#16 ∧ s0.phase = .running ∧
    s0.readSelector = 0#1 ∧ s0.writeSelector = 0#1 := by decide
theorem witness_ReadsAgreeUntilDisturbed :
    (∃ t, runSteps 2 (withWords s0 [0x10000000#32, 0x81000000#32]) = .next t) ∧
    (∀ w ∈ [0x10000000#32, 0x81000000#32, 0x50001B01#32], isWordOf disturbsReads w = false) ∧
    (∃ v, exec (.mrd 0x0800#16) s0 = .next { s0 with events := s0.events ++ [.rdata v] }) :=
  ⟨⟨_, rfl⟩, none_of _ _ (by decide), memRead s0 0x0800#16, rfl⟩
theorem witness_FetchSeesWrite : s0.phase = .running ∧ s0.writeSelector = 0#1 ∧
    (0x0800#16 : Addr) ≤ 0x0800#16 ∧ (0x07FF#16 : Addr) ≤ 0x07FF#16 ∧ s0.readSelector = 0#1 ∧
    { s0 with readSelector := 1#1 }.readSelector = 1#1 := by decide
theorem witness_LastWriteIsHeld :
    ∃ t, runSteps 3 (withWords s0 [0x300000AA#32, 0x50001A01#32, 0x10000000#32]) = .next t :=
  ⟨_, rfl⟩
theorem witness_PortDecode : (0x03#8 : Byte) ≤ 0x03#8 ∧ (0x08#8 : Byte) ≤ 0x08#8 ∧
    (0x0B#8 : Byte) ≤ 0x0B#8 ∧ ¬ (0x04#8 : Byte) ≤ 0x03#8 ∧ ¬ (0x0C#8 : Byte) ≤ 0x0B#8 ∧
    (0x04#8 : Byte) ≤ 0x07#8 ∧ (0x19#8 : Byte) ≤ 0x19#8 ∧ (0x1B#8 : Byte) ≤ 0xFF#8 := by decide
theorem witness_IoRead : s0.phase = .running ∧ (off none).phase = .unconfigured ∧ dead.phase = .failed ∧
    (0x00#8 : Byte) ≤ 0x03#8 ∧ (0x08#8 : Byte) ≤ 0x0B#8 ∧ (0x0C#8 : Byte) ≤ 0x1A#8 := by decide
theorem witness_IoWrite : s0.phase = .running ∧ (off none).phase = .unconfigured ∧ dead.phase = .failed ∧
    (0x03#8 : Byte) ≤ 0x03#8 ∧ (0x0B#8 : Byte) ≤ 0x0B#8 ∧ (0x0C#8 : Byte) ≤ 0x0C#8 ∧
    (0x1B#8 : Byte) ≤ 0x1B#8 := by decide
theorem witness_IoAddressHighByteIgnored : s0.phase = .running ∧
    (0xFF1A#16 : Addr).extractLsb' 0 8 = (0x001A#16 : Addr).extractLsb' 0 8 := by decide
theorem witness_SelectorWriteTakesEffectAtOnce : s0.phase = .running ∧ (0x07FF#16 : Addr) ≤ 0x07FF#16 ∧
    (0x02#8 : Byte).getLsbD 0 = false ∧ (0x03#8 : Byte).getLsbD 0 = true ∧
    s0.rom.bytes[0x07FF]? = some 0x5A#8 := by decide +kernel
theorem witness_BankSelectWrite : s0.phase = .running ∧ (0xFF#8 : Byte) &&& 1#8 = 1#8 ∧
    (0xFE#8 : Byte) &&& 1#8 = 0#8 ∧ (Instr.iowr 0x001A#16 0x01#8).agent = .cpu ∧
    shows (exec (.iowr 0x001A#16 0x01#8) s0) State.readSelector = some 1#1 ∧ s0.readSelector = 0#1 := by
  decide
theorem witness_PresenterIsLeastPending : s0.cfg.nestedAck = .defaultVector ∧
    (∃ j : Position, (s0ch .pending .inService).chain.dev j = .inService) ∧
    ∀ j : Position, (s0ch .pending .pending).chain.dev j ≠ .inService := by decide
theorem witness_PreemptingSelection : (preempting s0).cfg.nestedAck = .preemptHigher := by decide
theorem witness_RaiseRequest : 2 ≤ (2#4).toNat ∧ 2 ≤ (15#4).toNat ∧
    s0.phase = .running ∧ (off none).phase = .unconfigured ∧
    dead.phase = .failed ∧ s0.chain.dev 1 = .idle ∧ (s0ch .idle .inService).chain.dev 1 ≠ .idle := by
  decide
theorem witness_WithdrawRequest : s0.phase = .running ∧ (s0ch .idle .pending).chain.dev 1 = .pending ∧
    (s0ch .idle .inService).chain.dev 1 ≠ .pending := by decide
theorem witness_PositionOutsideChainRefused : 2 ≤ (2#4).toNat ∧ s0.phase ≠ .failed ∧
    (off none).phase ≠ .failed := by decide
theorem witness_AcknowledgeCycle : s0.phase = .running ∧
    ackSelect (s0ch .pending .pending) = some 0 ∧ ackSelect (s0ch .idle .pending) = some 1 ∧
    ackSelect (s0ch .pending .inService) = none ∧ ackSelect s0 = none := by decide
theorem witness_ReturnSequence : (s0ch .idle .inService).phase = .running ∧
    (s0ch .idle .inService).chain.dev 1 = .inService ∧
    (∀ i : Position, i < 1 → (s0ch .idle .inService).chain.dev i ≠ .inService) ∧
    ∀ j : Position, s0.chain.dev j ≠ .inService := by decide
theorem witness_PriorityLaw : (s0ch .pending .pending).phase = .running ∧
    (s0ch .pending .pending).cfg.nestedAck = .defaultVector ∧
    (s0ch .pending .pending).chain.dev 0 = .pending ∧ (s0ch .pending .pending).chain.dev 1 = .pending ∧
    ∀ k : Position, s0.chain.dev k ≠ .inService := by decide
theorem witness_RequestLineAfterChainTransactions :
    shows (exec (.raise (BitVec.ofNat 4 (1 : Position).val)) s0) intLine = some true ∧
    shows (exec .iack s0) intLine = some false ∧
    shows (exec (.withdraw (BitVec.ofNat 4 (0 : Position).val)) (s0ch .pending .idle)) intLine =
      some false ∧ (s0ch .pending .idle).chain.dev 0 ≠ .inService ∧
    shows (exec .reti (s0ch .inService .idle)) intLine = some false ∧
    (s0ch .inService .idle).chain.dev 0 = .inService := by decide
theorem witness_ServiceBlocksAcknowledges :
    (s0ch .idle .inService).phase = .running ∧
    (s0ch .idle .inService).cfg.nestedAck = .defaultVector ∧
    (s0ch .idle .inService).chain.dev 1 = .inService ∧
    (∃ t, runSteps 2 (withWords (s0ch .idle .inService) [0x80000000#32, 0x60000000#32]) = .next t) ∧
    ∀ w ∈ [0x80000000#32, 0x60000000#32], isWordOf endsServices w = false :=
  ⟨rfl, rfl, rfl, ⟨_, rfl⟩, none_of _ _ (by decide)⟩
theorem witness_ResetTransaction : s0.phase = .running ∧ (off none).phase = .unconfigured ∧
    dead.phase = .failed := by decide
theorem witness_PowerOnTransaction : (off (some romT)).phase = .unconfigured ∧
    (off (some romT)).cfg.romImage = some romT ∧ 0x800 ≤ romT.length ∧ s0.phase = .running ∧
    dead.phase = .failed := ⟨rfl, rfl, romT_covers, rfl, rfl⟩
/-- A block before POWERON with the parameters of `State.reset`. -/
def unset : State := { State.reset with phase := .unconfigured, events := [], ram := [(5, 7#8)] }

theorem exec_poweron_unset (s : State) (h : s.phase = .unconfigured)
    (hc : s.cfg.romImage = some RomImage.ofReset.bytes) :
    exec .poweron s = .next (resetSequence (configure RomImage.ofReset s)) :=
  admitPowerOn_eq_next.mpr ⟨h, powerOnSequence_eq_next.mpr ⟨_, RomImage.ofReset.covers, hc, rfl⟩⟩

theorem witness_PowerOnLeavesResetState : unset.phase = .unconfigured ∧ unset.cfg = State.reset.cfg ∧
    unset.events = [] ∧ unset.inbox = [] ∧ unset.draws = State.reset.draws ∧ unset.ram ≠ [] :=
  ⟨rfl, rfl, rfl, rfl, rfl, List.cons_ne_nil _ _⟩
theorem witness_ResetIsIdempotent : s0.phase = .running := by decide
theorem witness_ResetKeepsRamEndsServices : (s0ch .inService .pending).phase = .running := by decide
theorem witness_BootFetchReadsRom :
    (∃ t, exec .reset s0 = .next t) ∧ (∃ t, exec .poweron unset = .next t) ∧
    (∃ b : BootVector, b.addr = 0x0000#16) ∧ ∃ b : BootVector, b.addr = 0x07FF#16 :=
  ⟨⟨_, rfl⟩, ⟨_, exec_poweron_unset unset rfl rfl⟩, ⟨⟨_, by decide⟩, rfl⟩, ⟨⟨_, by decide⟩, rfl⟩⟩
theorem witness_OverlayStaysOnUntilTurnedOff : s0.phase = .running ∧ s0.readSelector = 0#1 ∧
    (∃ t, runSteps 2 (withWords s0 [0x300000AA#32, 0x50001A02#32]) = .next t) ∧
    (∀ w ∈ [0x300000AA#32, 0x50001A02#32], isWordOf turnsOverlayOff w = false) ∧
    (0x07FF#16 : Addr) ≤ 0x07FF#16 := ⟨rfl, rfl, ⟨_, rfl⟩, none_of _ _ (by decide), by decide⟩
theorem witness_PowerOnReadsNoUnsetField :
    unset.phase = .unconfigured ∧ ({ unset with ram := [] } : State).phase = .unconfigured ∧
    unset.cfg = ({ unset with ram := [] } : State).cfg ∧ unset.ram ≠ [] ∧
    ∃ t, exec .poweron unset = .next t :=
  ⟨rfl, rfl, rfl, List.cons_ne_nil _ _, _, exec_poweron_unset unset rfl rfl⟩
theorem witness_FailedMachineRefusesEverything :
    ∃ n left, step (withWords (off none) [0xB0000000#32]) = .fault (.configRomMissing n left) :=
  ⟨_, _, rfl⟩
theorem witness_UnconfiguredRefusals : (off none).phase = .unconfigured ∧
    (Instr.mwr 0#16 1#8).wellFormed = true ∧ Instr.mwr 0#16 1#8 ≠ .poweron := by decide
theorem witness_OnlyPowerOnFaults : Answer.isFault (exec .poweron (off none)) = true := by decide
theorem witness_AdmittedTransactionsComplete : (Instr.raise 1#4).wellFormed = true ∧
    Instr.raise 1#4 ≠ .poweron ∧ s0.phase = .running ∧ s0.writeSelector = 0#1 := by decide
theorem witness_WritersOfEachElement :
    (∃ t, exec (.raise 0#4) s0 = .next t ∧ t.chain ≠ s0.chain) ∧
    (∃ t, exec (.mwr 0xFFFF#16 1#8) s0 = .next t ∧ t.ram ≠ s0.ram) ∧
    ∃ t, exec (.iowr 0x001A#16 1#8) s0 = .next t ∧ t.readSelector ≠ s0.readSelector :=
  ⟨⟨_, rfl, by decide⟩, ⟨_, rfl, by decide⟩, _, rfl, by decide⟩
theorem witness_RomImagesNeverChange : s0.phase = .running ∧
    ∃ t, runSteps 1 (withWords s0 [0x300000AA#32]) = .next t := ⟨rfl, _, rfl⟩
theorem witness_CompanionRomNeverRead : s0.phase = .running ∧
    ∃ t, runSteps 2 (withWords s0 [0x60000000#32, 0x40000000#32]) = .next t := ⟨rfl, _, rfl⟩

/-- A state that meets the four invariants, and a step from it. -/
def served : State :=
  { withWords (s0ch .pending .inService) [0x300000AA#32] with events := [.cpuReset, .devAck .sio] }

theorem witness_StepKeepsInvariants : RamCanonical served ∧ WritesGoToRam served ∧ OneInService served ∧
    NestedInPriorityOrder served ∧ ∃ t, step served = .next t :=
  ⟨fun _ => by decide, fun _ => rfl, fun _ _ => by decide, fun _ => by decide, _, rfl⟩

end Sys2Proof.Tests
end

section
/-! PROOF. The family of 10_state.md: who writes each element of the state (R40), and the invariants every step
keeps (R23, R26, R30), all from the one case split `exec_frame`; then I/O addresses (R37), POWERON (R41) and the
request line (R31). -/

namespace Sys2Proof.Machine

/-! ### What a completed transaction writes -/

theorem extractLsb'_of_ioDecode_eq_bankSel {p : Addr} (h : ioDecode p = .bankSel) :
    p.extractLsb' 0 8 = Config.bankSelectPort := by
  simp only [ioDecode] at h
  split at h
  · cases h
  · split at h
    · cases h
    · split at h
      · assumption
      · cases h

/-- A completed transaction of the daisy chain (R141, R142, R145, R147). -/
def ChainMove (i : Instr) (s t : State) : Prop :=
  (∃ k p, i = .raise k ∧ t = raiseRequest p s) ∨ (∃ k p, i = .withdraw k ∧ t = dropRequest p s) ∨
  (i = .iack ∧ t = acknowledge s) ∨ (i = .reti ∧ t = endService s)

/-- The daisy chain's transactions, by name (R40's row of `chain`). -/
theorem ChainMove.instr {i : Instr} {s t : State} (h : ChainMove i s t) :
    (∃ k, i = .raise k ∨ i = .withdraw k) ∨ i = .iack ∨ i = .reti := by
  rcases h with ⟨k, -, hi, -⟩ | ⟨k, -, hi, -⟩ | ⟨hi, -⟩ | ⟨hi, -⟩
  · exact .inl ⟨k, .inl hi⟩
  · exact .inl ⟨k, .inr hi⟩
  · exact .inr (.inl hi)
  · exact .inr (.inr hi)

/-- The daisy chain's transactions write the chain, emit events and take free inputs, no more. -/
theorem ChainMove.frame {i : Instr} {s t : State} (h : ChainMove i s t) :
    ∃ ch es n, t = { s with chain := ch, events := es, draws := n } := by
  rcases h with ⟨-, p, -, rfl⟩ | ⟨-, p, -, rfl⟩ | ⟨-, rfl⟩ | ⟨-, rfl⟩
  · exact ⟨_, _, _, raiseRequest_frame p s⟩
  · exact ⟨_, _, _, dropRequest_frame p s⟩
  · rcases acknowledge_cases s with ⟨k, -, -, ht⟩ | ⟨-, ht⟩
    · exact ⟨_, _, _, ht⟩
    · exact ⟨_, _, _, ht⟩
  · rcases endService_cases s with ⟨j, -, -, ht⟩ | ⟨-, ht⟩
    · exact ⟨_, _, _, ht⟩
    · exact ⟨_, _, _, ht⟩

/-- A device is in service after a transaction of the chain only if it was before, or the acknowledge
selects it. -/
theorem ChainMove.inService {i : Instr} {s t : State} (h : ChainMove i s t) {k : Position}
    (hk : t.chain.dev k = .inService) : s.chain.dev k = .inService ∨ ackSelect s = some k := by
  rcases h with ⟨-, p, -, rfl⟩ | ⟨-, p, -, rfl⟩ | ⟨-, rfl⟩ | ⟨-, rfl⟩
  · rw [raiseRequest_dev] at hk
    split at hk
    · cases hk
    · exact .inl hk
  · rw [dropRequest_dev] at hk
    split at hk
    · cases hk
    · exact .inl hk
  · rcases acknowledge_cases s with ⟨j, hsel, -, ht⟩ | ⟨-, ht⟩
    · by_cases hkj : k = j
      · exact .inr (hkj ▸ hsel)
      · exact .inl (by simpa [ht, hkj] using hk)
    · exact .inl (by simpa [ht] using hk)
  · rcases endService_cases s with ⟨j, -, -, ht⟩ | ⟨-, ht⟩
    · by_cases hkj : k = j
      · simp [ht, hkj] at hk
      · exact .inl (by simpa [ht, hkj] using hk)
    · exact .inl (ht ▸ hk)

/-- R40: a completed transaction is one of six kinds by what it writes; events and free inputs apart, the
last kind writes nothing. -/
theorem exec_frame {i : Instr} {s t : State} (h : exec i s = .next t) :
    (s.phase = .unconfigured ∧ i = .poweron ∧ ∃ r, t = resetSequence (configure r s)) ∨
    (s.phase = .running ∧
      ((i = .reset ∧ t = resetSequence s) ∨
       (∃ a v, i = .mwr a v ∧ t = s.setRam a v) ∨
       (writesBankSelect i = true ∧ ∃ b, t = s.setReadSelector b) ∨
       ChainMove i s t ∨
       ∃ es n, t = { s with events := es, draws := n })) := by
  rcases exec_eq_next h with ⟨hp, h⟩ | ⟨hp, hi, img, hlen, -, ht⟩
  · refine .inr ⟨hp, ?_⟩
    rcases h with ⟨a, -, ht⟩ | ⟨a, v, hi, -, ht⟩ | ⟨p, -, ht⟩ | ⟨p, v, rfl, ht⟩ | hiack | hreti |
      ⟨k, p, hi, -, ht⟩ | ⟨k, p, hi, -, ht⟩ | hreset
    · exact .inr (.inr (.inr (.inr ⟨_, _, ht⟩)))
    · exact .inr (.inl ⟨a, v, hi, ht⟩)
    · rcases ht with ⟨dev, off, ht⟩ | ht
      · exact .inr (.inr (.inr (.inr ⟨_, _, ht⟩)))
      · exact .inr (.inr (.inr (.inr ⟨_, _, ht⟩)))
    · rcases ht with ⟨dev, off, ht⟩ | ⟨hd, ht⟩ | ht
      · exact .inr (.inr (.inr (.inr ⟨_, _, ht⟩)))
      · exact .inr (.inr (.inl ⟨decide_eq_true (extractLsb'_of_ioDecode_eq_bankSel hd), _, ht⟩))
      · exact .inr (.inr (.inr (.inr ⟨_, _, ht⟩)))
    · exact .inr (.inr (.inr (.inl (.inr (.inr (.inl hiack))))))
    · exact .inr (.inr (.inr (.inl (.inr (.inr (.inr hreti))))))
    · exact .inr (.inr (.inr (.inl (.inl ⟨k, p, hi, ht⟩))))
    · exact .inr (.inr (.inr (.inl (.inr (.inl ⟨k, p, hi, ht⟩)))))
    · exact .inl hreset
  · exact .inl ⟨hp, hi, ⟨img, hlen⟩, ht⟩

/-- No transaction writes the parameters (R7). -/
theorem exec_cfg {i : Instr} {s t : State} (h : exec i s = .next t) : t.cfg = s.cfg := by
  rcases exec_frame h with ⟨-, -, r, rfl⟩ |
    ⟨-, ⟨-, rfl⟩ | ⟨a, v, -, rfl⟩ | ⟨-, b, rfl⟩ | hc | ⟨es, n, rfl⟩⟩
  · rfl
  · rfl
  · rfl
  · rfl
  · obtain ⟨ch, es, n, rfl⟩ := hc.frame
    rfl
  · rfl

/-- The one way into service: a device in service after a completed transaction was in service before, or an
acknowledge of a running block selects it. -/
theorem exec_inService {i : Instr} {s t : State} (h : exec i s = .next t) {k : Position}
    (hk : t.chain.dev k = .inService) :
    s.phase = .running ∧ (s.chain.dev k = .inService ∨ ackSelect s = some k) := by
  rcases exec_frame h with ⟨-, -, r, rfl⟩ |
    ⟨hp, ⟨-, rfl⟩ | ⟨a, v, -, rfl⟩ | ⟨-, b, rfl⟩ | hc | ⟨es, n, rfl⟩⟩
  · simp at hk
  · simp at hk
  · exact ⟨hp, .inl hk⟩
  · exact ⟨hp, .inl hk⟩
  · exact ⟨hp, hc.inService hk⟩
  · exact ⟨hp, .inl hk⟩

/-! ### The invariants -/

/-- A predicate that taking a word and completing a transaction keep is kept by every step. -/
theorem step_keeps {P : State → Prop} (take : ∀ s ws, P s → P (s.setInbox ws))
    (perform : ∀ i s t, P s → exec i s = .next t → P t) {s t : State} (hs : P s)
    (h : step s = .next t) : P t := by
  rcases step_eq_next h with ⟨-, rfl⟩ | ⟨w, ws, i, -, -, -, he⟩
  · exact hs
  · exact perform i _ t (take s ws hs) he

theorem exec_keeps_ramCanonical (i : Instr) (s t : State) (hs : RamCanonical s)
    (h : exec i s = .next t) : RamCanonical t := by
  intro _
  rcases exec_frame h with ⟨-, -, r, rfl⟩ |
    ⟨hp, ⟨-, rfl⟩ | ⟨a, v, -, rfl⟩ | ⟨-, b, rfl⟩ | hc | ⟨es, n, rfl⟩⟩
  · exact Memory.wf_nil
  · exact hs hp
  · exact State.wf_setRam (hs hp) a v
  · exact hs hp
  · obtain ⟨ch, es, n, rfl⟩ := hc.frame
    exact hs hp
  · exact hs hp

/-- Settles O54: MWR is the one writer of a running block's RAM, and a write keeps the canonical form. -/
theorem stepKeepsRamCanonical : Obligations.StepKeepsRamCanonical := fun _ _ =>
  step_keeps (fun _ _ hs => hs) exec_keeps_ramCanonical

theorem exec_keeps_writesGoToRam (i : Instr) (s t : State) (hs : WritesGoToRam s)
    (h : exec i s = .next t) : WritesGoToRam t := by
  intro _
  rcases exec_frame h with ⟨-, -, r, rfl⟩ |
    ⟨hp, ⟨-, rfl⟩ | ⟨a, v, -, rfl⟩ | ⟨-, b, rfl⟩ | hc | ⟨es, n, rfl⟩⟩
  · rfl
  · rfl
  · exact hs hp
  · exact hs hp
  · obtain ⟨ch, es, n, rfl⟩ := hc.frame
    exact hs hp
  · exact hs hp

/-- Settles O55: RESET and POWERON alone write `write_selector`, and they write 0. -/
theorem stepKeepsWritesGoToRam : Obligations.StepKeepsWritesGoToRam := fun _ _ =>
  step_keeps (fun _ _ hs => hs) exec_keeps_writesGoToRam

/-- R143: under `default_vector` an acknowledge selects a device only when none is in service. -/
theorem not_inService_of_ackSelect {s : State} (hpol : s.cfg.nestedAck = .defaultVector)
    {k : Position} (hsel : ackSelect s = some k) (j : Position) : s.chain.dev j ≠ .inService := by
  rw [ackSelect, presenter, hpol] at hsel
  exact (selectDefault_eq_some.mp hsel).1 j

theorem exec_keeps_oneInService (i : Instr) (s t : State) (hs : OneInService s)
    (h : exec i s = .next t) : OneInService t := by
  intro _ hpol j k hj hk
  rw [exec_cfg h] at hpol
  obtain ⟨hp, hj⟩ := exec_inService h hj
  obtain ⟨-, hk⟩ := exec_inService h hk
  rcases hj with hj | hj <;> rcases hk with hk | hk
  · exact hs hp hpol j k hj hk
  · exact absurd hj (not_inService_of_ackSelect hpol hk j)
  · exact absurd hk (not_inService_of_ackSelect hpol hj k)
  · exact Option.some.inj (hj.symm.trans hk)

/-- Settles O56: a device enters service only when an acknowledge selects it, and under `default_vector`
none is selected while another is in service. -/
theorem stepKeepsOneInService : Obligations.StepKeepsOneInService := fun _ _ =>
  step_keeps (fun _ _ hs => hs) exec_keeps_oneInService

/-! ### The access table -/

/-- Settles O51: R40's writers, kind of transaction by kind of transaction. -/
theorem writersOfEachElement : Obligations.WritersOfEachElement := by
  intro i s t h
  rcases exec_frame h with ⟨-, rfl, r, rfl⟩ |
    ⟨-, ⟨rfl, rfl⟩ | ⟨a, v, rfl, rfl⟩ | ⟨hi, b, rfl⟩ | hc | ⟨es, n, rfl⟩⟩
  · simp
  · simp
  · simp
  · simp [hi]
  · have hi := hc.instr
    obtain ⟨ch, es, n, rfl⟩ := hc.frame
    simp only [ne_eq, not_true_eq_false, false_implies, true_and, and_self, and_true]
    exact fun _ => hi.imp_right (Or.imp_right .inl)
  · simp

/-! ### I/O addresses -/

/-- R37: the port decode reads the low byte of the I/O address alone. -/
theorem ioDecode_congr {p q : Addr} (h : p.extractLsb' 0 8 = q.extractLsb' 0 8) :
    ioDecode p = ioDecode q := by
  simp only [ioDecode, h]

/-- What an IORD of a running block does depends on the decoded port alone. -/
theorem exec_iord_congr {p q : Addr} {s : State} (hp : s.phase = .running)
    (h : ioDecode p = ioDecode q) : exec (.iord p) s = exec (.iord q) s := by
  simp only [exec, execIord, inRunning_running hp, h]

/-- What an IOWR of a running block does depends on the decoded port and the byte alone. -/
theorem exec_iowr_congr {p q : Addr} (d : Byte) {s : State} (hp : s.phase = .running)
    (h : ioDecode p = ioDecode q) : exec (.iowr p d) s = exec (.iowr q d) s := by
  simp only [exec, execIowr, inRunning_running hp, h]

theorem exec_iord_completes (p : Addr) {s : State} (hp : s.phase = .running) :
    ∃ t, exec (.iord p) s = .next t := by
  simp only [exec, execIord, inRunning_running hp]
  split <;> exact ⟨_, rfl⟩

theorem exec_iowr_completes (p : Addr) (d : Byte) {s : State} (hp : s.phase = .running) :
    ∃ t, exec (.iowr p d) s = .next t := by
  simp only [exec, execIowr, inRunning_running hp]
  split <;> exact ⟨_, rfl⟩

/-- Settles O24: the two addresses decode to one port. -/
theorem ioAddressHighByteIgnored : Obligations.IoAddressHighByteIgnored := by
  intro p q d s hp hpq
  have hdec : ioDecode q = ioDecode p := ioDecode_congr hpq.symm
  obtain ⟨t, ht⟩ := exec_iord_completes p hp
  obtain ⟨u, hu⟩ := exec_iowr_completes p d hp
  exact ⟨t, u, ht, (exec_iord_congr hp hdec).trans ht, hu, (exec_iowr_congr d hp hdec).trans hu⟩

/-! ### POWERON and the request line -/

/-- R41: configuration and reset write every field but the parameters, the events, the words and the count
of free inputs, and read none but those. -/
theorem resetSequence_configure_congr {s s' : State} (r : RomImage) (hcfg : s.cfg = s'.cfg)
    (hev : s.events = s'.events) (hin : s.inbox = s'.inbox) (hdr : s.draws = s'.draws) :
    resetSequence (configure r s) = resetSequence (configure r s') := by
  simp only [resetSequence, configure, State.emit, hcfg, hev, hin, hdr]

/-- Settles O46: both blocks load the same image, and the loads leave nothing of the unset fields. -/
theorem powerOnReadsNoUnsetField : Obligations.PowerOnReadsNoUnsetField := by
  intro s s' t _ hp' hcfg hev hin hdr h
  obtain ⟨-, hbody⟩ := admitPowerOn_eq_next.mp h
  obtain ⟨img, hlen, himg, ht⟩ := powerOnSequence_eq_next.mp hbody
  have ht' := ht.trans (resetSequence_configure_congr ⟨img, hlen⟩ hcfg hev hin hdr)
  exact admitPowerOn_eq_next.mpr ⟨hp', powerOnSequence_eq_next.mpr ⟨img, hlen, hcfg ▸ himg, ht'⟩⟩

/-- Settles O27, R31 position by position. -/
theorem requestLine : Obligations.RequestLine := intLine_iff

end Sys2Proof.Machine
end

section
/-! PROOF. The family of 20_memory.md: what a run of words leaves in RAM and in `read_selector` (R57, R61), what it
never changes or reads (R60), and that an admitted transaction completes (R58). Memory resolution (R54, R55), the
decoded word and the step have lemmas of their own. -/

namespace Sys2Proof.Machine

/-! ### Memory resolution -/

/-- R54 reads the ROM image, RAM and `read_selector`, no more. -/
theorem memRead_congr {s t : State} (hrom : t.rom = s.rom) (hram : t.ram = s.ram)
    (hsel : t.readSelector = s.readSelector) (a : Addr) : memRead t a = memRead s a := by
  simp only [memRead, State.ramByte, hrom, hram, hsel]

/-- R54 is the read column of R53. -/
theorem readsAs_memRead (s : State) (a : Addr) : ReadsAs s a (memRead s a) := by
  refine ⟨fun ha hsel => ?_, fun ha hsel => ?_, fun ha => ?_⟩
  · simp only [memRead, dif_pos ha, if_pos hsel, RomImage.byteAt]
    exact List.getElem?_eq_getElem _
  · have hne : s.readSelector ≠ 0#1 := by simp [hsel]
    simp only [memRead, dif_pos ha, if_neg hne]
  · have habove : ¬ a ≤ Config.windowHi := by bv_omega
    simp only [memRead, dif_neg habove]

/-- R100: the byte of R54 goes to the CPU. -/
theorem exec_mrd {s : State} {a : Addr} {v : Byte} (hp : s.phase = .running) (hv : memRead s a = v) :
    exec (.mrd a) s = .next (s.emit [.rdata v]) :=
  hv ▸ inRunning_running hp

/-- R101: the resolution of MRD. -/
theorem exec_mfetch {s : State} {a : Addr} {v : Byte} (hp : s.phase = .running)
    (hv : memRead s a = v) : exec (.mfetch a) s = .next (s.emit [.rdata v]) :=
  hv ▸ inRunning_running hp

theorem exec_mwr {s : State} (hp : s.phase = .running) (hw : s.writeSelector = 0#1) (a : Addr)
    (v : Byte) : exec (.mwr a v) s = .next (s.setRam a v) :=
  inRunning_eq_next.mpr ⟨hp, memWrite_eq_next.mpr ⟨.inr hw, rfl⟩⟩

/-! ### The bank-select port -/

theorem ioDecode_eq_bankSel {p : Addr} (h : p.extractLsb' 0 8 = Config.bankSelectPort) :
    ioDecode p = .bankSel := by
  simp [ioDecode, h]

theorem selectorBit_eq (v : Byte) : selectorBit v = v.extractLsb' 0 1 := by
  apply BitVec.eq_of_getLsbD_eq
  intro i hi
  obtain rfl : i = 0 := by omega
  simp [selectorBit]

/-- R124: an IOWR of port 0x1A, whatever the high byte of its address. -/
theorem exec_iowr_bankSelect {s : State} (hp : s.phase = .running) {p : Addr}
    (h : p.extractLsb' 0 8 = Config.bankSelectPort) (v : Byte) :
    exec (.iowr p v) s = .next (s.setReadSelector (v.extractLsb' 0 1)) := by
  simp only [exec, execIowr, inRunning_running hp, ioDecode_eq_bankSel h, selectorBit_eq]

/-! ### What one transaction leaves in RAM and in `read_selector` -/

theorem exec_ram_of_not_write {i : Instr} {s t : State} (h : exec i s = .next t)
    (hmwr : ∀ a v, i ≠ .mwr a v) (hpow : i ≠ .poweron) : t.ram = s.ram := by
  obtain ⟨-, -, -, -, hram, -⟩ := writersOfEachElement i s t h
  by_contra hne
  rcases hram hne with ⟨a, v, hi⟩ | hi
  · exact hmwr a v hi
  · exact hpow hi

theorem exec_readSelector_of_not_write {i : Instr} {s t : State} (h : exec i s = .next t)
    (hbank : writesBankSelect i = false) (hres : i ≠ .reset) (hpow : i ≠ .poweron) :
    t.readSelector = s.readSelector := by
  obtain ⟨-, hsel, -⟩ := writersOfEachElement i s t h
  by_contra hne
  rcases hsel hne with hi | hi | hi
  · simp [hbank] at hi
  · exact hres hi
  · exact hpow hi

/-- R26, R61: `ramAfter` is what a completed transaction does to each byte of RAM. -/
theorem exec_ramByte {i : Instr} {s t : State} (h : exec i s = .next t) (a : Addr) :
    t.ramByte a = ramAfter a (s.ramByte a) i := by
  cases i with
  | mwr b v =>
    obtain ⟨-, hbody⟩ := inRunning_eq_next.mp h
    obtain ⟨-, rfl⟩ := memWrite_eq_next.mp hbody
    simp only [State.ramByte_setRam, ramAfter, @eq_comm _ a b]
  | poweron =>
    obtain ⟨-, hbody⟩ := admitPowerOn_eq_next.mp h
    obtain ⟨img, hlen, -, rfl⟩ := powerOnSequence_eq_next.mp hbody
    rfl
  | _ => exact congrArg (Memory.read · a.toNat) (exec_ram_of_not_write h nofun nofun)

/-- R22, R124, R171: `selectorAfter` is what a completed transaction does to `read_selector`. -/
theorem exec_readSelector {i : Instr} {s t : State} (h : exec i s = .next t) :
    t.readSelector = selectorAfter s.readSelector i := by
  cases i with
  | iowr p v =>
    obtain ⟨hp, -⟩ := inRunning_eq_next.mp h
    by_cases hbank : p.extractLsb' 0 8 = Config.bankSelectPort
    · cases (exec_iowr_bankSelect hp hbank v).symm.trans h
      simp only [State.setReadSelector_readSelector, selectorAfter, if_pos hbank]
    · rw [selectorAfter, if_neg hbank]
      exact exec_readSelector_of_not_write h (decide_eq_false hbank) nofun nofun
  | reset =>
    obtain ⟨-, hbody⟩ := inRunning_eq_next.mp h
    cases hbody
    rfl
  | poweron =>
    obtain ⟨-, hbody⟩ := admitPowerOn_eq_next.mp h
    obtain ⟨img, hlen, -, rfl⟩ := powerOnSequence_eq_next.mp hbody
    rfl
  | _ => exact exec_readSelector_of_not_write h rfl nofun nofun

/-! ### What a run of words leaves -/

theorem ramAfterWords_cons {w : Word} {i : Instr} (hd : decode w = .ok i) (a : Addr) (ws : List Word)
    (v : Byte) : ramAfterWords a (w :: ws) v = ramAfterWords a ws (ramAfter a v i) := by
  simp only [ramAfterWords, List.foldl_cons, hd]

theorem selectorAfterWords_cons {w : Word} {i : Instr} (hd : decode w = .ok i) (ws : List Word)
    (b : Bit) : selectorAfterWords (w :: ws) b = selectorAfterWords ws (selectorAfter b i) := by
  simp only [selectorAfterWords, List.foldl_cons, hd]

/-- R61: the words are taken in their order. -/
theorem runSteps_inbox {n : Nat} {s t : State} (h : runSteps n s = .next t) :
    t.inbox = s.inbox.drop n := by
  have hsplit : s.inbox = s.inbox.take n ++ t.inbox := by
    refine runSteps_induction (P := fun s t ws => s.inbox = ws ++ t.inbox) (fun s => rfl) ?_ h
    intro s w ws i u t l hin _ he ih
    rw [exec_inbox he, State.setInbox_inbox] at ih
    rw [hin, ih, List.cons_append]
  exact List.append_cancel_left (hsplit.symm.trans (List.take_append_drop n s.inbox).symm)

theorem runSteps_ramByte {n : Nat} {s t : State} (h : runSteps n s = .next t) (a : Addr) :
    t.ramByte a = ramAfterWords a (s.inbox.take n) (s.ramByte a) := by
  refine runSteps_induction (P := fun s t ws => t.ramByte a = ramAfterWords a ws (s.ramByte a))
    (fun s => rfl) ?_ h
  intro s w ws i u t l _ hd he ih
  rw [ih, exec_ramByte he, ramAfterWords_cons hd, State.ramByte_setInbox]

theorem runSteps_readSelector {n : Nat} {s t : State} (h : runSteps n s = .next t) :
    t.readSelector = selectorAfterWords (s.inbox.take n) s.readSelector := by
  refine runSteps_induction
    (P := fun s t ws => t.readSelector = selectorAfterWords ws s.readSelector) (fun s => rfl) ?_ h
  intro s w ws i u t l _ hd he ih
  rw [ih, exec_readSelector he, selectorAfterWords_cons hd, State.setInbox_readSelector]

/-- Settles O20, by induction over the words taken, for the inbox, RAM and `read_selector` in turn. -/
theorem lastWriteIsHeld : Obligations.LastWriteIsHeld := fun _ _ _ h =>
  ⟨runSteps_inbox h, runSteps_ramByte h, runSteps_readSelector h⟩

/-! ### What no run of a running block changes -/

theorem ne_poweron_of_running {i : Instr} {s t : State} (hp : s.phase = .running)
    (h : exec i s = .next t) : i ≠ .poweron := by
  rintro rfl
  obtain ⟨hunconf, -⟩ := admitPowerOn_eq_next.mp h
  simp [hp] at hunconf

/-- POWERON alone writes these (R40), and a running block refuses it (R205). -/
theorem exec_running_frame {i : Instr} {s t : State} (hp : s.phase = .running)
    (h : exec i s = .next t) :
    t.phase = .running ∧ t.rom = s.rom ∧ t.companionRom = s.companionRom ∧ t.cfg = s.cfg := by
  obtain ⟨hphase, -, -, hrom, -, hcomp, -, hcfg, -⟩ := writersOfEachElement i s t h
  have hi := ne_poweron_of_running hp h
  exact ⟨(not_imp_comm.mp hphase hi).trans hp, not_imp_comm.mp hrom hi, not_imp_comm.mp hcomp hi, hcfg⟩

/-- Settles O52, by induction over the words taken. -/
theorem romImagesNeverChange : Obligations.RomImagesNeverChange := by
  intro n s t hp h
  refine runSteps_induction (P := fun s t _ => s.phase = .running → t.phase = .running ∧
    t.rom = s.rom ∧ t.companionRom = s.companionRom ∧ t.cfg = s.cfg)
    (fun s hp => ⟨hp, rfl, rfl, rfl⟩) ?_ h hp
  intro s w ws i u t l _ _ he ih hp
  obtain ⟨hpu, hrom, hcomp, hcfg⟩ := exec_running_frame (s := s.setInbox ws) hp he
  obtain ⟨hpt, hrom', hcomp', hcfg'⟩ := ih hpu
  exact ⟨hpt, hrom'.trans hrom, hcomp'.trans hcomp, hcfg'.trans hcfg⟩

/-! ### Reads between disturbances -/

theorem not_disturbsReads {i : Instr} (h : disturbsReads i = false) :
    (∀ a v, i ≠ .mwr a v) ∧ writesBankSelect i = false ∧ i ≠ .reset ∧ i ≠ .poweron := by
  cases i with
  | mwr a v => cases h
  | reset => cases h
  | poweron => cases h
  | iowr p v => exact ⟨nofun, h, nofun, nofun⟩
  | _ => exact ⟨nofun, rfl, nofun, nofun⟩

/-- R57, of one transaction. -/
theorem exec_memRead_of_not_disturbs {i : Instr} {s t : State} (hp : s.phase = .running)
    (h : exec i s = .next t) (hi : disturbsReads i = false) (a : Addr) : memRead t a = memRead s a := by
  obtain ⟨hmwr, hbank, hres, hpow⟩ := not_disturbsReads hi
  obtain ⟨-, hrom, -⟩ := exec_running_frame hp h
  exact memRead_congr hrom (exec_ram_of_not_write h hmwr hpow)
    (exec_readSelector_of_not_write h hbank hres hpow) a

/-- R57, of a run. -/
theorem runSteps_memRead {n : Nat} {s t : State} (hp : s.phase = .running)
    (h : runSteps n s = .next t) (hws : ∀ w ∈ s.inbox.take n, isWordOf disturbsReads w = false)
    (a : Addr) : memRead t a = memRead s a := by
  refine runSteps_induction (P := fun s t ws => s.phase = .running →
    (∀ w ∈ ws, isWordOf disturbsReads w = false) → memRead t a = memRead s a)
    (fun s _ _ => rfl) ?_ h hp hws
  intro s w ws i u t l _ hd he ih hp hws
  obtain ⟨hw, hl⟩ := List.forall_mem_cons.mp hws
  have hi : disturbsReads i = false := by simpa only [isWordOf, hd] using hw
  have hp' : (s.setInbox ws).phase = .running := hp
  obtain ⟨hpu, -⟩ := exec_running_frame hp' he
  exact (ih hpu hl).trans (exec_memRead_of_not_disturbs hp' he hi a)

/-- Settles O18: MRD answers the byte of R54, which no word of the run changes. -/
theorem readsAgreeUntilDisturbed : Obligations.ReadsAgreeUntilDisturbed := by
  intro n s t a v hp h hws hread
  obtain ⟨hpt, -⟩ := romImagesNeverChange n s t hp h
  have hv : memRead s a = v := by
    simpa [State.emit] using (exec_mrd hp rfl).symm.trans hread
  exact exec_mrd hpt ((runSteps_memRead hp h hws a).trans hv)

/-- Settles O19: MFETCH and MRD answer the byte of R54, which in each case of R53 is known. -/
theorem fetchSeesWrite : Obligations.FetchSeesWrite := by
  intro a v s hp hw
  have hpt : (s.setRam a v).phase = .running := hp
  have hheld : (s.setRam a v).ramByte a = v := by simp
  obtain ⟨hrom, hram, habove⟩ := readsAs_memRead (s.setRam a v) a
  refine ⟨s.setRam a v, exec_mwr hp hw a v, (exec_mfetch hpt rfl).trans (exec_mrd hpt rfl).symm, ?_, ?_⟩
  · intro hsees
    by_cases ha : 0x0800#16 ≤ a
    · exact exec_mfetch hpt ((habove ha).trans hheld)
    · have hwin : a ≤ 0x07FF#16 := by bv_omega
      exact exec_mfetch hpt ((hram hwin (hsees.resolve_left ha)).trans hheld)
  · intro ha hsel
    obtain ⟨-, hram', -⟩ := readsAs_memRead ((s.setRam a v).setReadSelector 1#1) a
    exact ⟨⟨_, hrom ha hsel, exec_mfetch hpt rfl⟩, (s.setRam a v).setReadSelector 1#1,
      exec_iowr_bankSelect hpt (by decide) 0x01#8, exec_mfetch hpt ((hram' ha rfl).trans hheld)⟩

/-! ### Admitted transactions complete -/

theorem exec_raise {s : State} {k : BitVec 4} (hp : s.phase = .running) (hk : k.toNat < Config.chainLen) :
    exec (.raise k) s = .next (raiseRequest ⟨k.toNat, hk⟩ s) := by
  simp only [exec, execRaise, admitPosition, dif_pos hk, inRunning_running hp]

theorem exec_withdraw {s : State} {k : BitVec 4} (hp : s.phase = .running)
    (hk : k.toNat < Config.chainLen) :
    exec (.withdraw k) s = .next (dropRequest ⟨k.toNat, hk⟩ s) := by
  simp only [exec, execWithdraw, admitPosition, dif_pos hk, inRunning_running hp]

theorem exec_completes {i : Instr} {s : State} (hwf : i.wellFormed = true) (hi : i ≠ .poweron)
    (hp : s.phase = .running) (hw : s.writeSelector = 0#1) : ∃ t, exec i s = .next t := by
  cases i with
  | mrd a => exact ⟨_, exec_mrd hp rfl⟩
  | mfetch a => exact ⟨_, exec_mfetch hp rfl⟩
  | mwr a v => exact ⟨_, exec_mwr hp hw a v⟩
  | iord p => exact exec_iord_completes p hp
  | iowr p v => exact exec_iowr_completes p v hp
  | iack => exact ⟨_, inRunning_running hp⟩
  | reti => exact ⟨_, inRunning_running hp⟩
  | raise k => exact ⟨_, exec_raise hp (of_decide_eq_true hwf)⟩
  | withdraw k => exact ⟨_, exec_withdraw hp (of_decide_eq_true hwf)⟩
  | reset => exact ⟨_, inRunning_running hp⟩
  | poweron => exact absurd rfl hi

/-- Settles O50: each completes, and only POWERON writes the phase. -/
theorem admittedTransactionsComplete : Obligations.AdmittedTransactionsComplete := by
  intro i s hwf hi hp hw
  obtain ⟨t, ht⟩ := exec_completes hwf hi hp hw
  obtain ⟨hpt, -⟩ := exec_running_frame hp ht
  exact ⟨t, ht, hpt⟩

/-! ### A step and its word -/

theorem packWord_of_fields {w : Word} {k n : BitVec 4} {a : Addr} {d : Byte}
    (hk : (kindField w).toNat = k.toNat) (hn : positionField w = n) (ha : addressField w = a)
    (hd : dataField w = d) : packWord k n a d = w := by
  obtain rfl : kindField w = k := BitVec.eq_of_toNat_eq hk
  subst hn ha hd
  exact packWord_fields w

/-- R75: a legal word is the word of what it decodes to, kind by kind. -/
theorem encode_of_decode {w : Word} {i : Instr} (h : decode w = .ok i) : encode i = w := by
  unfold decode at h
  split at h <;>
    simp only [unlessUnused_eq_ok, ofPosition_eq_ok, Bool.and_eq_true, beq_iff_eq, reduceCtorEq] at h
  case h_1 hk | h_2 hk | h_4 hk =>
    obtain ⟨⟨hn, hd⟩, rfl⟩ := h
    exact packWord_of_fields hk hn rfl hd
  case h_3 hk | h_5 hk =>
    obtain ⟨hn, rfl⟩ := h
    exact packWord_of_fields hk hn rfl rfl
  case h_6 hk | h_7 hk | h_10 hk | h_11 hk =>
    obtain ⟨⟨⟨hn, ha⟩, hd⟩, rfl⟩ := h
    exact packWord_of_fields hk hn ha hd
  case h_8 hk | h_9 hk =>
    obtain ⟨⟨ha, hd⟩, -, rfl⟩ := h
    exact packWord_of_fields hk rfl ha hd

theorem inRunning_failed {i : Instr} {s : State} {body : Answer} (hp : s.phase = .failed) :
    inRunning i s body = .refused (.machineFailed (encode i)) := by
  simp only [inRunning, hp]

theorem admitPosition_failed {i : Instr} {k : BitVec 4} {s : State} {body : Position → Answer}
    (hp : s.phase = .failed) : admitPosition i k s body = .refused (.machineFailed (encode i)) := by
  unfold admitPosition
  split
  · exact inRunning_failed hp
  · simp only [hp]

theorem admitPowerOn_failed {i : Instr} {s : State} {body : Answer} (hp : s.phase = .failed) :
    admitPowerOn i s body = .refused (.machineFailed (encode i)) := by
  simp only [admitPowerOn, hp]

/-- R203: whatever the transaction, an ill-formed chain position included. -/
theorem exec_failed {s : State} (hp : s.phase = .failed) (i : Instr) :
    exec i s = .refused (.machineFailed (encode i)) := by
  cases i with
  | raise k => simp only [exec, execRaise, admitPosition_failed hp]
  | withdraw k => simp only [exec, execWithdraw, admitPosition_failed hp]
  | poweron => exact admitPowerOn_failed hp
  | _ => exact inRunning_failed hp

theorem step_of_no_word {s : State} (hin : s.inbox = []) : step s = .next s := by
  simp only [step, takeWord, hin]

theorem step_of_failed {s : State} {w : Word} {ws : List Word} (hp : s.phase = .failed)
    (hin : s.inbox = w :: ws) : step s = .refused (.machineFailed w) := by
  simp only [step, takeWord, hin, if_pos hp]

theorem step_of_decode {s : State} {w : Word} {ws : List Word} {i : Instr} (hp : s.phase ≠ .failed)
    (hin : s.inbox = w :: ws) (hd : decode w = .ok i) : step s = exec i (s.setInbox ws) := by
  have htake : takeWord s = .perform i (s.setInbox ws) :=
    takeWord_eq_perform.mpr ⟨w, ws, hin, hp, hd, rfl⟩
  simp only [step, htake]

/-- Settles O8: a failed block refuses word and transaction alike, as the word is the transaction's own. -/
theorem stepRunsDecodedTransaction : Obligations.StepRunsDecodedTransaction := by
  intro s w ws i hin hd
  by_cases hp : s.phase = .failed
  · rw [step_of_failed hp hin, exec_failed (s := { s with inbox := ws }) hp, encode_of_decode hd]
  · exact step_of_decode hp hin hd

/-! ### The companion ROM -/

/-- `companion_rom <- img`, every other field kept: another companion image in place (R27). -/
def State.setCompanion (img : List Byte) (s : State) : State := { s with companionRom := img }

theorem State.setCompanion_chain (img : List Byte) (s : State) : (s.setCompanion img).chain = s.chain := rfl

theorem memWrite_setCompanion (img : List Byte) {w : Word} {a : Addr} {v : Byte} {s t : State}
    (h : memWrite w a v s = .next t) :
    memWrite w a v (s.setCompanion img) = .next (t.setCompanion img) := by
  obtain ⟨hw, rfl⟩ := memWrite_eq_next.mp h
  exact memWrite_eq_next.mpr ⟨hw, rfl⟩

theorem acknowledge_setCompanion (img : List Byte) (s : State) :
    acknowledge (s.setCompanion img) = (acknowledge s).setCompanion img := by
  have hsel : ackSelect (s.setCompanion img) = ackSelect s := rfl
  unfold acknowledge
  rw [hsel]
  cases ackSelect s <;> rfl

theorem endService_setCompanion (img : List Byte) (s : State) :
    endService (s.setCompanion img) = (endService s).setCompanion img := by
  unfold endService
  rw [State.setCompanion_chain]
  cases leastIn .inService s.chain <;> rfl

theorem raiseRequest_setCompanion (img : List Byte) (k : Position) (s : State) :
    raiseRequest k (s.setCompanion img) = (raiseRequest k s).setCompanion img := by
  simp only [raiseRequest, State.setCompanion_chain, apply_ite (State.setCompanion img)]
  rfl

theorem dropRequest_setCompanion (img : List Byte) (k : Position) (s : State) :
    dropRequest k (s.setCompanion img) = (dropRequest k s).setCompanion img := by
  simp only [dropRequest, State.setCompanion_chain, apply_ite (State.setCompanion img)]
  rfl

/-- R27 of one transaction: no transaction of a running block reads the companion ROM. -/
theorem exec_setCompanion (img : List Byte) {i : Instr} {s t : State} (hp : s.phase = .running)
    (h : exec i s = .next t) : exec i (s.setCompanion img) = .next (t.setCompanion img) := by
  cases i with
  | mrd a =>
    cases (exec_mrd hp rfl).symm.trans h
    exact exec_mrd (s := s.setCompanion img) hp rfl
  | mfetch a =>
    cases (exec_mfetch hp rfl).symm.trans h
    exact exec_mfetch (s := s.setCompanion img) hp rfl
  | mwr a v =>
    obtain ⟨-, hbody⟩ := inRunning_eq_next.mp h
    exact inRunning_eq_next.mpr ⟨hp, memWrite_setCompanion img hbody⟩
  | iord p =>
    obtain ⟨-, hbody⟩ := inRunning_eq_next.mp h
    refine inRunning_eq_next.mpr ⟨hp, ?_⟩
    cases hd : ioDecode p <;> rw [hd] at hbody <;> cases hbody <;> rfl
  | iowr p v =>
    obtain ⟨-, hbody⟩ := inRunning_eq_next.mp h
    refine inRunning_eq_next.mpr ⟨hp, ?_⟩
    cases hd : ioDecode p <;> rw [hd] at hbody <;> cases hbody <;> rfl
  | iack =>
    obtain ⟨-, hbody⟩ := inRunning_eq_next.mp h
    cases hbody
    exact inRunning_eq_next.mpr ⟨hp, congrArg _ (acknowledge_setCompanion img s)⟩
  | reti =>
    obtain ⟨-, hbody⟩ := inRunning_eq_next.mp h
    cases hbody
    exact inRunning_eq_next.mpr ⟨hp, congrArg _ (endService_setCompanion img s)⟩
  | raise k =>
    obtain ⟨-, hk, hbody⟩ := admitPosition_eq_next.mp (show execRaise k s = .next t from h)
    cases hbody
    exact (exec_raise (s := s.setCompanion img) hp hk).trans
      (congrArg _ (raiseRequest_setCompanion img _ s))
  | withdraw k =>
    obtain ⟨-, hk, hbody⟩ := admitPosition_eq_next.mp (show execWithdraw k s = .next t from h)
    cases hbody
    exact (exec_withdraw (s := s.setCompanion img) hp hk).trans
      (congrArg _ (dropRequest_setCompanion img _ s))
  | reset =>
    obtain ⟨-, hbody⟩ := inRunning_eq_next.mp h
    cases hbody
    exact inRunning_eq_next.mpr ⟨hp, rfl⟩
  | poweron => exact absurd rfl (ne_poweron_of_running hp h)

/-- R27 of one step, which leaves the block running. -/
theorem step_setCompanion (img : List Byte) {s t : State} (hp : s.phase = .running)
    (h : step s = .next t) :
    t.phase = .running ∧ step (s.setCompanion img) = .next (t.setCompanion img) := by
  have hp' : (s.setCompanion img).phase ≠ .failed := by simp [State.setCompanion, hp]
  rcases step_eq_next h with ⟨hin, rfl⟩ | ⟨w, ws, i, hin, -, hd, he⟩
  · exact ⟨hp, step_of_no_word hin⟩
  · have hpw : (s.setInbox ws).phase = .running := hp
    obtain ⟨hpt, -⟩ := exec_running_frame hpw he
    exact ⟨hpt, (step_of_decode hp' hin hd).trans (exec_setCompanion img hpw he)⟩

/-- Settles O53, by induction over the steps: after each the two runs differ in the image alone. -/
theorem companionRomNeverRead : Obligations.CompanionRomNeverRead := by
  intro n s t img hp h
  induction n generalizing s with
  | zero => cases h; rfl
  | succ n ih =>
    obtain ⟨u, hu, hrun⟩ := runSteps_succ_eq_next.mp h
    obtain ⟨hpu, hu'⟩ := step_setCompanion img hp hu
    exact runSteps_succ_eq_next.mpr ⟨u.setCompanion img, hu', ih u hpu hrun⟩

end Sys2Proof.Machine
end

section
/-! PROOF. The family of 30_encoding.md: the decoder and the encoder are inverse to each other (R75), a row of R72
covers just the words of its own transactions, and what R74 makes of every other word; then the pseudo-transactions
and the assembly (R76, R77). -/

namespace Sys2Proof.Machine

open Sys2Proof.Laws

/-! ### The decoder and the encoder -/

/-- R75: the word of a well-formed transaction has R71's kind, zero in every field the kind does not use and a
position of CHAIN, which is all the decoder asks. -/
theorem decode_encode {i : Instr} (hwf : i.wellFormed = true) : decode (encode i) = .ok i := by
  cases i with
  | raise k => simpa [decode, encode, ofPosition_eq_ok, Instr.wellFormed] using hwf
  | withdraw k => simpa [decode, encode, ofPosition_eq_ok, Instr.wellFormed] using hwf
  | _ => simp [decode, encode, unlessUnused_eq_ok]

/-- Settles O1, at every operand value. -/
theorem decodeOfEncode : Obligations.DecodeOfEncode := fun _ hwf => decode_encode hwf

/-- R74 point 3: the decoder reads a chain position only where CHAIN has it. -/
theorem wellFormed_of_decode {w : Word} {i : Instr} (h : decode w = .ok i) : i.wellFormed = true := by
  unfold decode at h
  split at h <;> simp only [unlessUnused_eq_ok, ofPosition_eq_ok, reduceCtorEq] at h
  case h_8 | h_9 =>
    obtain ⟨-, hn, rfl⟩ := h
    exact hn
  all_goals
    obtain ⟨-, rfl⟩ := h
    rfl

/-- Settles O2: the word back, and a position that the decoder checked. -/
theorem encodeOfDecode : Obligations.EncodeOfDecode := fun _ _ h =>
  ⟨encode_of_decode h, wellFormed_of_decode h⟩

/-! ### The rows of R72 -/

/-- The mask of a field: every bit of one that the kind does not use (R72). -/
def fieldMask (n : Nat) (used : Bool) : BitVec n := if used then 0#n else BitVec.allOnes n

theorem and_fieldMask_eq_zero {n : Nat} {x : BitVec n} {used : Bool} :
    x &&& fieldMask n used = 0#n ↔ (used = false → x = 0#n) := by
  cases used <;> simp [fieldMask]

/-- The row of R72 that R71's kind and field use give a transaction. -/
def rowOf (i : Instr) : OpcodeRow where
  pattern := packWord i.kind 0#4 0#16 0#8
  mask := packWord (fieldMask 4 false) (fieldMask 4 (FieldUse.usedFields i).1)
    (fieldMask 16 (FieldUse.usedFields i).2.1) (fieldMask 8 (FieldUse.usedFields i).2.2)
  onChain := (FieldUse.usedFields i).1

/-- The eleven transactions with the fields of `w` as operands, in R72's order. -/
def readings (w : Word) : List Instr :=
  [.mrd (addressField w), .mfetch (addressField w), .mwr (addressField w) (dataField w),
    .iord (addressField w), .iowr (addressField w) (dataField w), .iack, .reti,
    .raise (positionField w), .withdraw (positionField w), .reset, .poweron]

/-- R72's table is made of R71's kinds and field uses. -/
theorem opcodeRows_eq_map_rowOf (w : Word) : opcodeRows = (readings w).map rowOf := by
  simp only [opcodeRows, readings, List.map_cons, List.map_nil, rowOf, Instr.kind, FieldUse.usedFields]
  decide

theorem mem_readings_encode (i : Instr) : i ∈ readings (encode i) := by
  cases i <;> simp [readings, encode]

theorem fieldUse (i : Instr) : FieldUse.Statement i := by
  cases i with
  | mrd a => exact FieldUse.mrd a
  | mfetch a => exact FieldUse.mfetch a
  | mwr a d => exact FieldUse.mwr a d
  | iord a => exact FieldUse.iord a
  | iowr a d => exact FieldUse.iowr a d
  | iack => exact FieldUse.iack
  | reti => exact FieldUse.reti
  | raise k => exact FieldUse.raise k
  | withdraw k => exact FieldUse.withdraw k
  | reset => exact FieldUse.reset
  | poweron => exact FieldUse.poweron

/-- A row's match and mask, field by field. -/
theorem rowOf_covers_iff {i : Instr} {w : Word} :
    (rowOf i).covers w ↔
      (kindField w = i.kind ∧
        ((FieldUse.usedFields i).1 = false → positionField w = 0#4) ∧
        ((FieldUse.usedFields i).2.1 = false → addressField w = 0#16) ∧
        ((FieldUse.usedFields i).2.2 = false → dataField w = 0#8)) ∧
      ((FieldUse.usedFields i).1 = true → (positionField w).toNat < Config.chainLen) := by
  have hmask : w &&& (rowOf i).mask = packWord (kindField w) (positionField w) (addressField w)
      (dataField w) &&& (rowOf i).mask := by rw [packWord_fields]
  have hkind : kindField w &&& fieldMask 4 false = kindField w := BitVec.and_allOnes
  rw [OpcodeRow.covers, hmask]
  simp only [rowOf, packWord_and, packWord_inj, hkind, and_fieldMask_eq_zero]

/-- The row of a well-formed transaction covers its word. -/
theorem rowOf_covers_encode {i : Instr} (hwf : i.wellFormed = true) : (rowOf i).covers (encode i) := by
  refine rowOf_covers_iff.mpr ⟨fieldUse i, fun hused => ?_⟩
  cases i with
  | raise k => simpa [encode] using of_decide_eq_true hwf
  | withdraw k => simpa [encode] using of_decide_eq_true hwf
  | _ => cases hused

/-- A word that a row covers is the word of the row's transaction on the word's own fields. -/
theorem encode_of_rowOf_covers {i : Instr} {w : Word} (hi : i ∈ readings w) (h : (rowOf i).covers w) :
    encode i = w ∧ i.wellFormed = true := by
  obtain ⟨⟨hk, hn, ha, hd⟩, hc⟩ := rowOf_covers_iff.mp h
  replace hk := congrArg BitVec.toNat hk
  cases i
  case mrd a | mfetch a | iord a =>
    obtain rfl : a = addressField w := by simpa [readings] using hi
    exact ⟨packWord_of_fields hk (hn rfl) rfl (hd rfl), rfl⟩
  case mwr a d | iowr a d =>
    obtain ⟨rfl, rfl⟩ : a = addressField w ∧ d = dataField w := by simpa [readings] using hi
    exact ⟨packWord_of_fields hk (hn rfl) rfl rfl, rfl⟩
  case raise k | withdraw k =>
    obtain rfl : k = positionField w := by simpa [readings] using hi
    exact ⟨packWord_of_fields hk rfl (ha rfl) (hd rfl), decide_eq_true (hc rfl)⟩
  all_goals exact ⟨packWord_of_fields hk (hn rfl) (ha rfl) (hd rfl), rfl⟩

/-- R72 and R75: the rows that cover a word are the row of the transaction it decodes to. -/
theorem covers_iff_decode {r : OpcodeRow} {w : Word} :
    r ∈ opcodeRows ∧ r.covers w ↔ ∃ i, decode w = .ok i ∧ r = rowOf i := by
  constructor
  · rintro ⟨hr, hc⟩
    rw [opcodeRows_eq_map_rowOf w] at hr
    obtain ⟨i, hi, rfl⟩ := List.mem_map.mp hr
    obtain ⟨rfl, hwf⟩ := encode_of_rowOf_covers hi hc
    exact ⟨i, decode_encode hwf, rfl⟩
  · rintro ⟨i, hd, rfl⟩
    obtain rfl := encode_of_decode hd
    rw [opcodeRows_eq_map_rowOf (encode i)]
    exact ⟨List.mem_map_of_mem (mem_readings_encode i), rowOf_covers_encode (wellFormed_of_decode hd)⟩

/-- A word of a transaction has one row alone, the transaction's own. -/
theorem eq_rowOf_of_covers {r : OpcodeRow} {w : Word} {i : Instr} (hd : decode w = .ok i)
    (hr : r ∈ opcodeRows) (hc : r.covers w) : r = rowOf i := by
  obtain ⟨j, hj, rfl⟩ := covers_iff_decode.mp ⟨hr, hc⟩
  rw [Except.ok.inj (hj.symm.trans hd)]

theorem exists_covers_iff_decode {w : Word} :
    (∃ i, decode w = .ok i) ↔ ∃ r ∈ opcodeRows, r.covers w := by
  simp only [covers_iff_decode]
  exact ⟨fun ⟨i, hd⟩ => ⟨_, i, hd, rfl⟩, fun ⟨_, i, hd, _⟩ => ⟨i, hd⟩⟩

/-- Settles O3: a row that covers the word is the row of the transaction the word decodes to. -/
theorem decodingFollowsOpcodeTable : Obligations.DecodingFollowsOpcodeTable := by
  intro w
  refine ⟨exists_covers_iff_decode, fun r hr q hq hrw hqw => ?_, fun i hd r hr hrw => ?_⟩
  · obtain ⟨i, hd, rfl⟩ := covers_iff_decode.mp ⟨hr, hrw⟩
    exact (eq_rowOf_of_covers hd hq hqw).symm
  · obtain rfl := eq_rowOf_of_covers hd hr hrw
    exact (kindField_packWord _ _ _ _).symm

/-! ### Illegal words -/

theorem unlessUnused_error_iff {b : Bool} {i : Instr} :
    (∃ e, unlessUnused b i = .error e) ↔ b = false := by
  cases b <;> simp [unlessUnused]

theorem ofPosition_error_iff {b : Bool} {n : BitVec 4} {i : Instr} :
    (∃ e, ofPosition b n i = .error e) ↔ b = false ∨ 2 ≤ n.toNat := by
  have hchain : positionInChain n = false ↔ 2 ≤ n.toNat :=
    decide_eq_false_iff_not.trans Nat.not_lt
  cases b <;> cases hn : positionInChain n <;> simp [ofPosition, hn, ← hchain]

/-- R74: the decoder rejects a word for one of the three causes, kind by kind. -/
theorem decode_error_iff {w : Word} : (∃ e, decode w = .error e) ↔ IllegalCause w := by
  unfold decode IllegalCause IllegalFields
  split
  case h_12 =>
    simp only [imp_false] at *
    have hk : (kindField w).toNat = 0x0 ∨ 0xC ≤ (kindField w).toNat := by omega
    exact iff_of_true ⟨_, rfl⟩ (.inl hk)
  case h_8 hk | h_9 hk =>
    simp [hk, ofPosition_error_iff, -Bool.and_eq_false_imp, Bool.and_eq_false_iff, or_assoc]
  case h_1 hk | h_2 hk | h_3 hk | h_4 hk | h_5 hk | h_6 hk | h_7 hk | h_10 hk | h_11 hk =>
    simp [hk, unlessUnused_error_iff, -Bool.and_eq_false_imp, Bool.and_eq_false_iff, or_assoc]

theorem step_of_illegal {s : State} {w : Word} {ws : List Word} {e : DecodeError}
    (hp : s.phase ≠ .failed) (hin : s.inbox = w :: ws) (hd : decode w = .error e) :
    step s = .refused (.illegalWord w) := by
  simp only [step, takeWord, hin, if_neg hp, hd]

theorem decode_of_legal {w : Word} (h : ¬ IllegalCause w) : ∃ i, decode w = .ok i := by
  cases hd : decode w with
  | error e => exact absurd (decode_error_iff.mp ⟨e, hd⟩) h
  | ok i => exact ⟨i, rfl⟩

/-- Settles O4: the decoder's errors are R74's causes, and a word it reads has its transaction's row. -/
theorem illegalWordsRefused : Obligations.IllegalWordsRefused := by
  intro w
  refine ⟨decode_error_iff, fun hill s ws hp hin => ?_, fun hleg => ?_⟩
  · obtain ⟨e, hd⟩ := decode_error_iff.mpr hill
    exact step_of_illegal hp hin hd
  · obtain ⟨i, hd⟩ := decode_of_legal hleg
    obtain ⟨hr, hc⟩ := covers_iff_decode.mpr ⟨i, hd, rfl⟩
    exact ⟨rowOf i, hr, hc, fun q hq hqw => eq_rowOf_of_covers hd hq hqw⟩

theorem admitPosition_outside {i : Instr} {k : BitVec 4} {s : State} {body : Position → Answer}
    (hk : ¬ k.toNat < Config.chainLen) (hp : s.phase ≠ .failed) :
    admitPosition i k s body = .refused (.illegalWord (encode i)) := by
  unfold admitPosition
  rw [dif_neg hk]
  cases h : s.phase with
  | failed => exact absurd h hp
  | _ => rfl

/-- Settles O32: both are admitted by their position alone. -/
theorem positionOutsideChainRefused : Obligations.PositionOutsideChainRefused := by
  intro k s hk hp
  have hk : ¬ k.toNat < Config.chainLen := Nat.not_lt.mpr hk
  simp only [exec, execRaise, execWithdraw, admitPosition_outside hk hp, and_self]

/-! ### Fixed words and lines, and the step without a word -/

/-- Settles O5, word by word. -/
theorem wordsOfTheVectors : Obligations.WordsOfTheVectors := by
  refine ⟨?_, ?_, ?_, ?_, ?_, ?_, ?_, ?_, ?_, ?_, ?_⟩ <;> decide

/-- Settles O6: both expansions are an IOWR of port 0x1A (R124). -/
theorem pseudoTransactions : Obligations.PseudoTransactions := by
  refine ⟨by decide, by decide, rfl, fun s hp => ⟨?_, ?_⟩⟩
  · exact List.forall_mem_singleton.mpr (exec_iowr_bankSelect hp (by decide) 0x00#8)
  · exact List.forall_mem_singleton.mpr (exec_iowr_bankSelect hp (by decide) 0x01#8)

/-- Settles O7, line by line. -/
theorem assemblyLines : Obligations.AssemblyLines := by
  refine ⟨?_, ?_, ?_, ?_, ?_, ?_, ?_, ?_, ?_, ?_, ?_, ?_, ?_, ?_⟩ <;> decide

/-- Settles O9: no word, nothing to perform. -/
theorem stepWithoutWord : Obligations.StepWithoutWord := fun _ hin => step_of_no_word hin

end Sys2Proof.Machine
end

section
/-! PROOF. The family of 40_memory_ops.md: what MRD, MFETCH and MWR answer in each phase (R100 to R102), that
`read_selector` plays no part above the window (R103), and that the two sides of a window address are apart (R104). -/

namespace Sys2Proof.Machine

/-! ### Admission and the window -/

theorem inRunning_unconfigured {i : Instr} {s : State} {body : Answer} (hp : s.phase = .unconfigured) :
    inRunning i s body = .refused (.notConfigured (encode i)) := by
  simp only [inRunning, hp]

theorem windowHi_lt_iff {a : Addr} : Config.windowHi < a ↔ 0x0800#16 ≤ a := by
  constructor <;> intro h <;> bv_omega

/-- R53: an address above the window reads RAM. -/
theorem memRead_above_window {a : Addr} (ha : 0x0800#16 ≤ a) (s : State) : memRead s a = s.ramByte a := by
  obtain ⟨-, -, habove⟩ := readsAs_memRead s a
  exact habove ha

/-- R55: a write that R23 or its address admits. -/
theorem exec_mwr_of_writable {s : State} {a : Addr} (hp : s.phase = .running)
    (hw : s.writeSelector = 0#1 ∨ 0x0800#16 ≤ a) (v : Byte) :
    exec (.mwr a v) s = .next (s.setRam a v) :=
  inRunning_eq_next.mpr ⟨hp, memWrite_eq_next.mpr ⟨hw.symm.imp_left windowHi_lt_iff.mpr, rfl⟩⟩

/-- R55 and R204: the write that R23 rules out. -/
theorem exec_mwr_unreachable {s : State} {a : Addr} (hp : s.phase = .running)
    (hw : s.writeSelector = 1#1) (ha : a ≤ Config.windowHi) (v : Byte) :
    exec (.mwr a v) s = .refused (.unreachableState (encode (.mwr a v))) := by
  have hne : s.writeSelector ≠ 0#1 := by simp [hw]
  simp only [exec, execMwr, inRunning_running hp, memWrite, if_pos ha, if_neg hne]

/-! ### Writing and then reading -/

/-- A canonical image is fixed by what it reads as, so writing back the byte held gives the same list. -/
theorem State.setRam_ramByte {s : State} (h : s.ram.wf) (a : Addr) : s.setRam a (s.ramByte a) = s := by
  have hram : s.ram.write a.toNat (s.ramByte a) = s.ram := by
    refine Memory.eq_of_read_eq (State.wf_setRam h a _) h fun b => ?_
    rw [Memory.read_write]
    split
    · next hb => rw [hb, State.ramByte]
    · rfl
  simp only [State.setRam, hram]

/-- Settles O15: the write completes, and leaves the canonical image it found. -/
theorem writeOfHeldByte : Obligations.WriteOfHeldByte := by
  intro a s hp hw hwf
  rw [exec_mwr hp hw, State.setRam_ramByte hwf]

/-- Settles O16: above the window a read takes its byte from RAM, and a write goes there. -/
theorem selectorIrrelevantAboveWindow : Obligations.SelectorIrrelevantAboveWindow := by
  intro a v b s i ha hp hi
  have hpb : (s.setReadSelector b).phase = .running := hp
  have hread : memRead s a = s.ramByte a := memRead_above_window ha s
  have hreadb : memRead (s.setReadSelector b) a = s.ramByte a := memRead_above_window ha _
  rcases hi with rfl | rfl | rfl
  · exact ⟨_, exec_mrd hp hread, exec_mrd hpb hreadb⟩
  · exact ⟨_, exec_mfetch hp hread, exec_mfetch hpb hreadb⟩
  · exact ⟨_, exec_mwr_of_writable hp (.inr ha) v, exec_mwr_of_writable hpb (.inr ha) v⟩

/-- Settles O17: under the overlay MRD takes the ROM byte, and after the IOWR the byte RAM holds (R53). -/
theorem windowReadWriteIndependence : Obligations.WindowReadWriteIndependence := by
  intro a v s ha hp hsel hw
  have hpt : (s.setRam a v).phase = .running := hp
  have hheld : (s.setRam a v).ramByte a = v := by simp
  obtain ⟨hrom, -, -⟩ := readsAs_memRead (s.setRam a v) a
  obtain ⟨-, hram, -⟩ := readsAs_memRead ((s.setRam a v).setReadSelector 1#1) a
  exact ⟨s.setRam a v, _, exec_mwr hp hw a v, hrom ha hsel, exec_mrd hpt rfl, hheld,
    (s.setRam a v).setReadSelector 1#1, exec_iowr_bankSelect hpt (by decide) 0x01#8,
    exec_mrd hpt ((hram ha rfl).trans hheld)⟩

/-! ### The three transactions, phase by phase -/

/-- Settles O12: the byte of R54, which is R53's. -/
theorem memoryRead : Obligations.MemoryRead := fun a s =>
  ⟨decode_encode (i := .mrd a) rfl,
    fun hp => ⟨_, readsAs_memRead s a, exec_mrd hp rfl⟩,
    inRunning_unconfigured, inRunning_failed⟩

/-- Settles O13: the byte of R54, as MRD answers it. -/
theorem instructionFetch : Obligations.InstructionFetch := fun a s =>
  ⟨decode_encode (i := .mfetch a) rfl,
    fun hp => ⟨_, readsAs_memRead s a, exec_mfetch hp rfl,
      (exec_mfetch hp rfl).trans (exec_mrd hp rfl).symm⟩,
    inRunning_unconfigured, inRunning_failed⟩

/-- Settles O14: the state left is the one found, with `ram[a]` written. -/
theorem memoryWrite : Obligations.MemoryWrite := by
  intro a v s
  refine ⟨decode_encode (i := .mwr a v) rfl, fun hp hw => ?_,
    fun hp hw ha => exec_mwr_unreachable hp hw ha v, inRunning_unconfigured, inRunning_failed⟩
  refine ⟨s.setRam a v, exec_mwr_of_writable hp hw v, rfl, ?_, fun b hb => ?_⟩
  · rw [State.ramByte_setRam, if_pos rfl]
  · rw [State.ramByte_setRam, if_neg hb]

end Sys2Proof.Machine
end

section
/-! PROOF. The family of 41_io_ops.md: what an I/O address reaches, by its low byte (R120), what IORD and IOWR answer
at each kind of port and in each phase (R121 to R123, R125), and the bank-select port (R124). -/

namespace Sys2Proof.Machine

/-! ### The port decode -/

/-- R37: the low byte of an I/O address written as two bytes. -/
theorem extractLsb'_append_port (hi p : Byte) : (hi ++ p : Addr).extractLsb' 0 8 = p :=
  BitVec.extractLsb'_append_eq_right

theorem ioDecode_sio (hi : Byte) {p : Byte} (h : p ≤ 0x03#8) :
    ioDecode (hi ++ p) = .sio (p.extractLsb' 0 2) := by
  simp only [ioDecode, extractLsb'_append_port, if_pos h]

theorem ioDecode_ctc1 (hi : Byte) {p : Byte} (hlo : 0x08#8 ≤ p) (hup : p ≤ 0x0B#8) :
    ioDecode (hi ++ p) = .ctc1 (p.extractLsb' 0 2) := by
  have hsio : ¬ p ≤ 0x03#8 := by bv_omega
  simp only [ioDecode, extractLsb'_append_port, if_neg hsio, if_pos (And.intro hlo hup)]

theorem ioDecode_bankSel (hi : Byte) : ioDecode (hi ++ 0x1A#8) = .bankSel :=
  ioDecode_eq_bankSel (extractLsb'_append_port hi _)

/-- R125: the ports that neither a device nor the bank select answers. -/
theorem ioDecode_unmapped (hi : Byte) {p : Byte}
    (h : 0x04#8 ≤ p ∧ p ≤ 0x07#8 ∨ 0x0C#8 ≤ p ∧ p ≤ 0x19#8 ∨ 0x1B#8 ≤ p) :
    ioDecode (hi ++ p) = .unmapped := by
  have hsio : ¬ p ≤ 0x03#8 := by bv_omega
  have hctc : ¬ (0x08#8 ≤ p ∧ p ≤ 0x0B#8) := by bv_omega
  have hbank : p ≠ Config.bankSelectPort := by bv_omega
  simp only [ioDecode, extractLsb'_append_port, if_neg hsio, if_neg hctc, if_neg hbank]

/-- R123 and R125: from 0x0C on, and between the two devices, no device answers. -/
theorem ioDecode_no_device (hi : Byte) {p : Byte}
    (h : 0x04#8 ≤ p ∧ p ≤ 0x07#8 ∨ 0x0C#8 ≤ p) :
    ioDecode (hi ++ p) = .bankSel ∨ ioDecode (hi ++ p) = .unmapped := by
  by_cases hbank : p = 0x1A#8
  · exact .inl (hbank ▸ ioDecode_bankSel hi)
  · exact .inr (ioDecode_unmapped hi (by bv_omega))

/-- Settles O21, range by range. -/
theorem portDecode : Obligations.PortDecode := fun hi _ =>
  ⟨ioDecode_sio hi, ioDecode_ctc1 hi, fun h => h ▸ ioDecode_bankSel hi, ioDecode_unmapped hi⟩

/-! ### The two transactions at each kind of port -/

/-- What the port decode answers at offset `off` of a device (R120). -/
def devicePort : Device → BitVec 2 → IoTarget
  | .ctc1 => .ctc1
  | .sio => .sio

section
variable {s : State} (hp : s.phase = .running) {p : Addr} {off : BitVec 2}
include hp

/-- R126: the device's byte reaches the CPU through the block. -/
theorem exec_iord_device (dev : Device) (h : ioDecode p = devicePort dev off) :
    exec (.iord p) s = .next (devReadCycle dev off s) := by
  cases dev <;> simp only [exec, execIord, inRunning_running hp, h, devicePort]

/-- R123 and R125: port 0x1A reads as an unmapped port does. -/
theorem exec_iord_no_device (h : ioDecode p = .bankSel ∨ ioDecode p = .unmapped) :
    exec (.iord p) s = .next (drawCycle s) := by
  rcases h with h | h <;> simp only [exec, execIord, inRunning_running hp, h]

theorem exec_iowr_device (dev : Device) (h : ioDecode p = devicePort dev off) (d : Byte) :
    exec (.iowr p d) s = .next (devWriteCycle dev off d s) := by
  cases dev <;> simp only [exec, execIowr, inRunning_running hp, h, devicePort]

theorem exec_iowr_unmapped (h : ioDecode p = .unmapped) (d : Byte) :
    exec (.iowr p d) s = .next s := by
  simp only [exec, execIowr, inRunning_running hp, h]

end

/-- Settles O22: the device's cycle at a device's port, a draw at every other. -/
theorem ioRead : Obligations.IoRead := fun hi p _ =>
  ⟨decode_encode (i := .iord (hi ++ p)) rfl,
    fun hp h => exec_iord_device hp .sio (ioDecode_sio hi h),
    fun hp hlo hup => exec_iord_device hp .ctc1 (ioDecode_ctc1 hi hlo hup),
    fun hp h => exec_iord_no_device hp (ioDecode_no_device hi h),
    inRunning_unconfigured, inRunning_failed⟩

/-- Settles O23: the device's cycle at a device's port, the selector at port 0x1A, nothing at every other. -/
theorem ioWrite : Obligations.IoWrite := fun hi p d _ =>
  ⟨decode_encode (i := .iowr (hi ++ p) d) rfl,
    fun hp h => exec_iowr_device hp .sio (ioDecode_sio hi h) d,
    fun hp hlo hup => exec_iowr_device hp .ctc1 (ioDecode_ctc1 hi hlo hup) d,
    fun hp h => exec_iowr_bankSelect hp ((extractLsb'_append_port hi p).trans h) d,
    fun hp h => exec_iowr_unmapped hp (ioDecode_unmapped hi h) d,
    inRunning_unconfigured, inRunning_failed⟩

/-! ### The bank select -/

/-- R124: the selector written is `value bitwise-AND 1`. -/
theorem extractLsb'_eq_of_and_one {d : Byte} {b : Bit} (h : d &&& 1#8 = b.setWidth 8) :
    d.extractLsb' 0 1 = b := by
  rw [← selectorBit_eq, selectorBit, h, BitVec.setWidth_setWidth_of_le _ (by decide),
    BitVec.setWidth_eq]

/-- R40: RESET and POWERON, the other writers of `read_selector`, are the host's. -/
theorem writesBankSelect_of_cpu {i : Instr} {s t : State} (hcpu : i.agent = .cpu)
    (h : exec i s = .next t) (hne : t.readSelector ≠ s.readSelector) : writesBankSelect i = true := by
  obtain ⟨-, hsel, -⟩ := writersOfEachElement i s t h
  rcases hsel hne with hi | rfl | rfl
  · exact hi
  · cases hcpu
  · cases hcpu

/-- Settles O26: the write leaves bit 0 of its byte in `read_selector`, and the access table (R40) names no
other of the CPU's transactions. -/
theorem bankSelectWrite : Obligations.BankSelectWrite := fun _ =>
  ⟨fun hi d hp => ⟨_, exec_iowr_bankSelect hp (extractLsb'_append_port hi _) d,
      extractLsb'_eq_of_and_one (b := 1#1), extractLsb'_eq_of_and_one (b := 0#1), rfl⟩,
    fun _ _ => writesBankSelect_of_cpu⟩

end Sys2Proof.Machine
end

section
/-! PROOF. The family of 42_interrupt_ops.md: the selection of an acknowledge under either policy (R143, R146), what
RAISE, WITHDRAW, IACK and RETI answer in each phase (R141, R142, R145, R147, R148), the priority law (R149), the
request line after each of them (R150), and the order in which services nest (R146). -/

namespace Sys2Proof.Machine

/-! ### The chain's entry into service and return from it -/

/-- Position `k` acknowledged: the device enters service and its vector goes to the CPU (R145). -/
def enterService (k : Position) (s : State) : State :=
  ((s.setDev k .inService).emit
    [.devAck (chainDevice k), .vector (Config.deviceVector s.draws (chainDevice k))]).nextDraw

/-- The service of position `j` ended (R147). -/
def leaveService (j : Position) (s : State) : State :=
  (s.setDev j .idle).emit [.devReti (chainDevice j)]

@[simp] theorem enterService_dev (k j : Position) (s : State) :
    (enterService k s).chain.dev j = if j = k then .inService else s.chain.dev j :=
  Chain.dev_put s.chain k j .inService

@[simp] theorem leaveService_dev (k j : Position) (s : State) :
    (leaveService k s).chain.dev j = if j = k then .idle else s.chain.dev j :=
  Chain.dev_put s.chain k j .idle

theorem devAck_mem_enterService (k : Position) (s : State) :
    .devAck (chainDevice k) ∈ (enterService k s).events.drop s.events.length := by
  simp [enterService]

theorem acknowledge_of_ackSelect_some {s : State} {k : Position} (h : ackSelect s = some k) :
    acknowledge s = enterService k s := by
  simp only [acknowledge, h, enterService]

theorem acknowledge_of_ackSelect_none {s : State} (h : ackSelect s = none) :
    acknowledge s = s.emit [.vector s.cfg.defaultVector] := by
  simp only [acknowledge, h]

theorem endService_of_least {s : State} {j : Position} (hj : s.chain.dev j = .inService)
    (hmin : ∀ i : Position, i < j → s.chain.dev i ≠ .inService) : endService s = leaveService j s := by
  simp only [endService, leastIn_eq_some.mpr ⟨hj, hmin⟩, leaveService]

theorem endService_of_none {s : State} (h : ∀ j : Position, s.chain.dev j ≠ .inService) :
    endService s = s := by
  simp only [endService, leastIn_eq_none.mpr h]

/-! ### The transactions of a running block -/

section
variable {s : State} (hp : s.phase = .running)
include hp

theorem exec_iack : exec .iack s = .next (acknowledge s) := inRunning_running hp

theorem exec_reti : exec .reti s = .next (endService s) := inRunning_running hp

theorem exec_iack_selected {k : Position} (h : ackSelect s = some k) :
    exec .iack s = .next (enterService k s) := by
  rw [exec_iack hp, acknowledge_of_ackSelect_some h]

theorem exec_iack_none (h : ackSelect s = none) :
    exec .iack s = .next (s.emit [.vector s.cfg.defaultVector]) := by
  rw [exec_iack hp, acknowledge_of_ackSelect_none h]

theorem exec_reti_least {j : Position} (hj : s.chain.dev j = .inService)
    (hmin : ∀ i : Position, i < j → s.chain.dev i ≠ .inService) :
    exec .reti s = .next (leaveService j s) := by
  rw [exec_reti hp, endService_of_least hj hmin]

theorem exec_raise_position (p : Position) :
    exec (.raise (BitVec.ofNat 4 p.val)) s = .next (raiseRequest p s) := by
  rcases position_cases p with rfl | rfl <;> exact exec_raise hp (by decide)

theorem exec_withdraw_position (p : Position) :
    exec (.withdraw (BitVec.ofNat 4 p.val)) s = .next (dropRequest p s) := by
  rcases position_cases p with rfl | rfl <;> exact exec_withdraw hp (by decide)

end

/-! ### The nesting of services -/

theorem openServices_append (es fs : List Event) :
    openServices (es ++ fs) = fs.foldl serviceEvent (openServices es) :=
  List.foldl_append

/-- Which devices are serviced depends on which positions are in service alone. -/
theorem servicedDevices_congr {c d : Chain}
    (h : ∀ k : Position, c.dev k = .inService ↔ d.dev k = .inService) :
    servicedDevices c = servicedDevices d := by
  simp only [servicedDevices, h]

/-- The first device in service heads the list of those in service, the rest of which is the list without it. -/
theorem servicedDevices_eq_cons {c d : Chain} {k : Position} (hc : c.dev k = .inService)
    (hd : d.dev k ≠ .inService) (hsame : ∀ j : Position, j ≠ k → c.dev j = d.dev j)
    (hmin : ∀ j : Position, j < k → c.dev j ≠ .inService) :
    servicedDevices c = chainDevice k :: servicedDevices d := by
  rcases position_cases k with rfl | rfl
  · have h1 : c.dev 1 = d.dev 1 := hsame 1 (by decide)
    by_cases hd1 : d.dev 1 = .inService <;> simp [servicedDevices, positions_eq, hc, hd, h1, hd1]
  · have h0 : c.dev 0 ≠ .inService := hmin 0 (by decide)
    have hd0 : d.dev 0 ≠ .inService := hsame 0 (by decide) ▸ h0
    simp [servicedDevices, positions_eq, hc, hd, h0, hd0]

/-- Under either policy an acknowledge selects a pending device before which none is in service. -/
theorem not_inService_before_ackSelect {s : State} {k : Position} (h : ackSelect s = some k)
    (j : Position) (hj : j < k) : s.chain.dev j ≠ .inService := by
  cases hpol : s.cfg.nestedAck with
  | defaultVector => exact not_inService_of_ackSelect hpol h j
  | preemptHigher =>
    simp only [ackSelect, presenter, hpol] at h
    obtain ⟨-, hidle⟩ := selectPreempt_eq_some.mp h
    simp [hidle j hj]

/-- An acknowledge puts its device at the head of the services under way, by events and by chain alike. -/
theorem acknowledge_nested {s : State} (hs : openServices s.events = servicedDevices s.chain) :
    openServices (acknowledge s).events = servicedDevices (acknowledge s).chain := by
  rcases acknowledge_cases s with ⟨k, hsel, hpend, ht⟩ | ⟨-, ht⟩
  · have hcons : servicedDevices (enterService k s).chain = chainDevice k :: servicedDevices s.chain := by
      refine servicedDevices_eq_cons (by simp) (by simp [hpend]) (fun j hj => by simp [hj]) ?_
      intro j hj
      simpa [Fin.ne_of_lt hj] using not_inService_before_ackSelect hsel j hj
    rw [acknowledge_of_ackSelect_some hsel, hcons, ← hs]
    exact openServices_append _ _
  · rw [ht]
    exact (openServices_append _ _).trans hs

/-- A return ends the service at the head of those under way, by events and by chain alike. -/
theorem endService_nested {s : State} (hs : openServices s.events = servicedDevices s.chain) :
    openServices (endService s).events = servicedDevices (endService s).chain := by
  rcases endService_cases s with ⟨j, hj, hmin, ht⟩ | ⟨-, ht⟩
  · have hcons : servicedDevices s.chain = chainDevice j :: servicedDevices (leaveService j s).chain :=
      servicedDevices_eq_cons hj (by simp) (fun i hi => by simp [hi]) hmin
    have hopen : openServices (leaveService j s).events =
        (openServices s.events).erase (chainDevice j) := openServices_append _ _
    rw [endService_of_least hj hmin, hopen, hs, hcons, List.erase_cons_head]
  · rw [ht]
    exact hs

theorem servicedDevices_raiseRequest (k : Position) (s : State) :
    servicedDevices (raiseRequest k s).chain = servicedDevices s.chain := by
  refine servicedDevices_congr fun j => ?_
  rw [raiseRequest_dev]
  split
  · next h =>
    obtain ⟨rfl, hk⟩ := h
    simp [hk]
  · rfl

theorem servicedDevices_dropRequest (k : Position) (s : State) :
    servicedDevices (dropRequest k s).chain = servicedDevices s.chain := by
  refine servicedDevices_congr fun j => ?_
  rw [dropRequest_dev]
  split
  · next h =>
    obtain ⟨rfl, hk⟩ := h
    simp [hk]
  · rfl

/-- R146, transaction by transaction: reset ends every service, IACK and RETI work at the head of the services
under way, and no other transaction opens or ends one. -/
theorem exec_keeps_nestedInPriorityOrder (i : Instr) (s t : State) (hs : NestedInPriorityOrder s)
    (h : exec i s = .next t) : NestedInPriorityOrder t := by
  intro _
  rcases exec_eq_next h with ⟨hp, h⟩ | ⟨-, -, img, hlen, -, rfl⟩
  · replace hs := hs hp
    rcases h with ⟨a, -, rfl⟩ | ⟨a, v, -, -, rfl⟩ | ⟨p, -, (⟨dev, off, rfl⟩ | rfl)⟩ |
      ⟨p, v, -, (⟨dev, off, rfl⟩ | ⟨-, rfl⟩ | rfl)⟩ | ⟨-, rfl⟩ | ⟨-, rfl⟩ | ⟨-, k, -, -, rfl⟩ |
      ⟨-, k, -, -, rfl⟩ | ⟨-, rfl⟩
    · exact (openServices_append _ _).trans hs
    · exact hs
    · exact (openServices_append _ _).trans hs
    · exact (openServices_append _ _).trans hs
    · exact (openServices_append _ _).trans hs
    · exact hs
    · exact hs
    · exact acknowledge_nested hs
    · exact endService_nested hs
    · rw [servicedDevices_raiseRequest, raiseRequest_frame]
      exact hs
    · rw [servicedDevices_dropRequest, dropRequest_frame]
      exact hs
    · exact openServices_append _ _
  · exact openServices_append _ _

/-- Settles O57: an acknowledge selects a device before which none is in service, and RETI ends the first
service. -/
theorem stepKeepsNestedOrder : Obligations.StepKeepsNestedOrder := fun _ _ =>
  step_keeps (fun _ _ hs => hs) exec_keeps_nestedInPriorityOrder

/-! ### The selection of an acknowledge -/

theorem ackSelect_of_defaultVector {s : State} (hpol : s.cfg.nestedAck = .defaultVector) :
    ackSelect s = selectDefault s.chain := by
  simp only [ackSelect, presenter, hpol]

/-- R143: a service, of whatever priority, keeps every device from being selected. -/
theorem selectDefault_of_inService {ch : Chain} {j : Position} (hj : ch.dev j = .inService) :
    selectDefault ch = none := by
  refine Option.eq_none_iff_forall_ne_some.mpr fun k hk => ?_
  obtain ⟨hnone, -⟩ := selectDefault_eq_some.mp hk
  exact hnone j hj

theorem selectDefault_of_none_inService {ch : Chain} (h : ∀ j : Position, ch.dev j ≠ .inService) :
    selectDefault ch = leastIn .pending ch := by
  simp [selectDefault, leastIn_eq_none.mpr h]

/-- Settles O28: with none in service the presenter is the least pending position (R32). -/
theorem presenterIsLeastPending : Obligations.PresenterIsLeastPending := by
  intro s hpol
  have hpres : presenter s = selectDefault s.chain := ackSelect_of_defaultVector hpol
  rw [hpres]
  refine ⟨hpres, fun ⟨j, hj⟩ => selectDefault_of_inService hj, fun hnone => ?_⟩
  rw [selectDefault_of_none_inService hnone]
  exact ⟨fun _ => leastIn_eq_some, leastIn_eq_none⟩

/-- Settles O29: R146's search, position by position. -/
theorem preemptingSelection : Obligations.PreemptingSelection := by
  intro s hpol
  have hsel : ackSelect s = selectPreempt s.chain := by simp only [ackSelect, presenter, hpol]
  exact ⟨rfl, fun _ => hsel ▸ selectPreempt_eq_some⟩

/-! ### The request line -/

/-- R31: the line is low exactly when every device is idle. -/
theorem intLine_eq_false_iff {s : State} : intLine s = false ↔ ∀ k : Position, s.chain.dev k = .idle := by
  rw [← Bool.not_eq_true, intLine_iff, not_exists]
  refine forall_congr' fun k => ?_
  cases s.chain.dev k <;> simp

theorem intLine_eq_true_of_not_idle {s : State} {k : Position} (h : s.chain.dev k ≠ .idle) :
    intLine s = true := by
  rw [← Bool.not_eq_false, intLine_eq_false_iff]
  exact fun hidle => h (hidle k)

/-- Where a transaction leaves its own device idle, the others alone hold the line. -/
theorem intLine_eq_false_iff_others {s t : State} {p : Position} (hp : t.chain.dev p = .idle)
    (hsame : ∀ j : Position, j ≠ p → t.chain.dev j = s.chain.dev j) :
    intLine t = false ↔ ∀ j : Position, j ≠ p → s.chain.dev j = .idle := by
  rw [intLine_eq_false_iff]
  refine ⟨fun h j hj => hsame j hj ▸ h j, fun h j => ?_⟩
  by_cases hj : j = p
  · rw [hj, hp]
  · rw [hsame j hj, h j hj]

theorem intLine_raiseRequest (p : Position) (s : State) : intLine (raiseRequest p s) = true := by
  refine intLine_eq_true_of_not_idle (k := p) ?_
  by_cases h : s.chain.dev p = .idle <;> simp [h]

/-- The acknowledged device holds the line before, pending, and after, in service. -/
theorem intLine_acknowledge (s : State) : intLine (acknowledge s) = intLine s := by
  rcases acknowledge_cases s with ⟨k, hsel, hpend, -⟩ | ⟨-, ht⟩
  · have hbefore : intLine s = true := intLine_eq_true_of_not_idle (k := k) (by simp [hpend])
    have hafter : intLine (enterService k s) = true := intLine_eq_true_of_not_idle (k := k) (by simp)
    rw [acknowledge_of_ackSelect_some hsel, hbefore, hafter]
  · rw [ht]
    rfl

theorem dropRequest_dev_self {p : Position} {s : State} (h : s.chain.dev p ≠ .inService) :
    (dropRequest p s).chain.dev p = .idle := by
  rw [dropRequest_dev]
  cases hd : s.chain.dev p with
  | inService => exact absurd hd h
  | _ => simp

/-- Settles O36: the device of each transaction ends up holding the line or idle, and no other moves. -/
theorem requestLineAfterChainTransactions : Obligations.RequestLineAfterChainTransactions := by
  intro p s t
  refine ⟨fun h => ?_, fun h => ?_, fun h hd => ?_, fun h j hj hmin => ?_⟩
  · obtain ⟨hp, -⟩ := admitPosition_eq_next.mp (show execRaise _ s = .next t from h)
    cases (exec_raise_position hp p).symm.trans h
    exact intLine_raiseRequest p s
  · obtain ⟨hp, -⟩ := inRunning_eq_next.mp h
    cases (exec_iack hp).symm.trans h
    exact intLine_acknowledge s
  · obtain ⟨hp, -⟩ := admitPosition_eq_next.mp (show execWithdraw _ s = .next t from h)
    cases (exec_withdraw_position hp p).symm.trans h
    exact intLine_eq_false_iff_others (dropRequest_dev_self hd) fun i hi => by simp [hi]
  · obtain ⟨hp, -⟩ := inRunning_eq_next.mp h
    cases (exec_reti_least hp hj hmin).symm.trans h
    exact intLine_eq_false_iff_others (by simp) fun i hi => by simp [hi]

/-! ### The priority law -/

/-- Two requests in either order leave the same devices pending. -/
theorem raiseRequest_chain_comm {j k : Position} (hjk : j ≠ k) (s : State) :
    (raiseRequest j (raiseRequest k s)).chain = (raiseRequest k (raiseRequest j s)).chain := by
  refine Chain.ext fun i => ?_
  simp only [raiseRequest_dev]
  by_cases hij : i = j
  · subst hij
    simp [hjk, hjk.symm]
  · simp [hij, hjk, hjk.symm]

theorem raiseRequest_raiseRequest_frame (j k : Position) (s : State) :
    raiseRequest j (raiseRequest k s) = { s with chain := (raiseRequest j (raiseRequest k s)).chain } :=
  (raiseRequest_frame j _).trans
    (congrArg (fun u : State => { u with chain := (raiseRequest j (raiseRequest k s)).chain })
      (raiseRequest_frame k s))

/-- Two requests commute. -/
theorem raiseRequest_comm {j k : Position} (hjk : j ≠ k) (s : State) :
    raiseRequest j (raiseRequest k s) = raiseRequest k (raiseRequest j s) := by
  rw [raiseRequest_raiseRequest_frame j, raiseRequest_raiseRequest_frame k, raiseRequest_chain_comm hjk]

theorem raiseRequest_dev_self {p : Position} {s : State} (h : s.chain.dev p ≠ .inService) :
    (raiseRequest p s).chain.dev p = .pending := by
  rw [raiseRequest_dev]
  cases hd : s.chain.dev p with
  | inService => exact absurd hd h
  | _ => simp

theorem raiseRequest_phase (k : Position) (s : State) : (raiseRequest k s).phase = s.phase := by
  rw [raiseRequest_frame]

section
variable {s : State} (hpol : s.cfg.nestedAck = .defaultVector)
include hpol

theorem ackSelect_eq_none_of_inService {j : Position} (hj : s.chain.dev j = .inService) :
    ackSelect s = none :=
  (ackSelect_of_defaultVector hpol).trans (selectDefault_of_inService hj)

theorem ackSelect_eq_some_of_least {k : Position} (hnone : ∀ j : Position, s.chain.dev j ≠ .inService)
    (hk : s.chain.dev k = .pending) (hmin : ∀ j : Position, j < k → s.chain.dev j ≠ .pending) :
    ackSelect s = some k :=
  (ackSelect_of_defaultVector hpol).trans (selectDefault_eq_some.mpr ⟨hnone, hk, hmin⟩)

end

/-- R149's first acknowledge: of two pending devices CTC1. -/
theorem ackSelect_of_both_pending {s : State} (hpol : s.cfg.nestedAck = .defaultVector)
    (h0 : s.chain.dev 0 = .pending) (h1 : s.chain.dev 1 = .pending) : ackSelect s = some 0 :=
  ackSelect_eq_some_of_least hpol (Fin.forall_fin_two.mpr ⟨by simp [h0], by simp [h1]⟩) h0
    fun j hj => absurd hj j.not_lt_zero

/-- R149's last acknowledge: SIO, with CTC1 idle again. -/
theorem ackSelect_of_sio_pending {s : State} (hpol : s.cfg.nestedAck = .defaultVector)
    (h0 : s.chain.dev 0 = .idle) (h1 : s.chain.dev 1 = .pending) : ackSelect s = some 1 :=
  ackSelect_eq_some_of_least hpol (Fin.forall_fin_two.mpr ⟨by simp [h0], by simp [h1]⟩) h1
    (Fin.forall_fin_two.mpr ⟨by simp [h0], fun h => absurd h (lt_irrefl _)⟩)

theorem raises_commute {s : State} (hp : s.phase = .running)
    (hnone : ∀ k : Position, s.chain.dev k ≠ .inService) : ∃ a b t,
      exec (.raise 0#4) s = .next a ∧ exec (.raise 1#4) a = .next t ∧
      exec (.raise 1#4) s = .next b ∧ exec (.raise 0#4) b = .next t ∧
      t.chain.dev 0 = .pending ∧ t.chain.dev 1 = .pending := by
  have hphase (k : Position) : (raiseRequest k s).phase = .running := (raiseRequest_phase k s).trans hp
  have hcomm : raiseRequest 0 (raiseRequest 1 s) = raiseRequest 1 (raiseRequest 0 s) :=
    raiseRequest_comm (by decide) s
  have hnone' (k j : Position) : (raiseRequest k s).chain.dev j ≠ .inService := by
    rw [raiseRequest_dev]
    split
    · nofun
    · exact hnone j
  exact ⟨_, _, _, exec_raise_position hp 0, exec_raise_position (hphase 0) 1,
    exec_raise_position hp 1, hcomm ▸ exec_raise_position (hphase 1) 0,
    hcomm ▸ raiseRequest_dev_self (hnone' 1 0), raiseRequest_dev_self (hnone' 0 1)⟩

/-- R149 from CTC1's service on: SIO waits for the RETI. -/
theorem sio_serviced_after_reti {t : State} (hp : t.phase = .running)
    (hpol : t.cfg.nestedAck = .defaultVector) (h0 : t.chain.dev 0 = .inService)
    (h1 : t.chain.dev 1 = .pending) : ∃ u v w,
      exec .iack t = .next u ∧ u.chain = t.chain ∧
      exec .reti u = .next v ∧ v.chain.dev 0 = .idle ∧ v.chain.dev 1 = .pending ∧
      exec .iack v = .next w ∧ w.chain.dev 1 = .inService ∧
      .devAck .sio ∈ w.events.drop v.events.length := by
  have hiack := exec_iack_none hp (ackSelect_eq_none_of_inService hpol h0)
  have hreti := exec_reti_least (s := t.emit [.vector t.cfg.defaultVector]) hp h0
    fun j hj => absurd hj j.not_lt_zero
  have hlast := exec_iack_selected (s := leaveService 0 (t.emit [.vector t.cfg.defaultVector])) hp
    (ackSelect_of_sio_pending hpol (by simp) (by simp [h1]))
  exact ⟨_, _, _, hiack, rfl, hreti, by simp, by simp [h1], hlast, by simp, devAck_mem_enterService 1 _⟩

/-- Settles O35: the two RAISEs commute, and each IACK takes the device that R143 presents. -/
theorem priorityLaw : Obligations.PriorityLaw := by
  intro s hp hpol
  refine ⟨raises_commute hp, fun h0 h1 => ?_⟩
  have ht0 : (enterService 0 s).chain.dev 0 = .inService := by simp
  have ht1 : (enterService 0 s).chain.dev 1 = .pending := by simp [h1]
  obtain ⟨u, v, w, hafter⟩ := sio_serviced_after_reti (t := enterService 0 s) hp hpol ht0 ht1
  exact ⟨_, u, v, w, exec_iack_selected hp (ackSelect_of_both_pending hpol h0 h1), ht0, ht1,
    devAck_mem_enterService 0 s, hafter⟩

/-! ### The four transactions, phase by phase -/

theorem positionInChain_position (p : Position) : positionInChain (BitVec.ofNat 4 p.val) = true := by
  revert p
  decide

theorem admitPosition_unconfigured {i : Instr} {k : BitVec 4} {s : State} {body : Position → Answer}
    (hk : k.toNat < Config.chainLen) (hp : s.phase = .unconfigured) :
    admitPosition i k s body = .refused (.notConfigured (encode i)) := by
  simp only [admitPosition, dif_pos hk, inRunning_unconfigured hp]

/-- R202: whatever the well-formed transaction but POWERON. -/
theorem exec_unconfigured {i : Instr} {s : State} (hwf : i.wellFormed = true) (hi : i ≠ .poweron)
    (hp : s.phase = .unconfigured) : exec i s = .refused (.notConfigured (encode i)) := by
  cases i with
  | raise k => simp only [exec, execRaise, admitPosition_unconfigured (of_decide_eq_true hwf) hp]
  | withdraw k => simp only [exec, execWithdraw, admitPosition_unconfigured (of_decide_eq_true hwf) hp]
  | poweron => exact absurd rfl hi
  | _ => exact inRunning_unconfigured hp

/-- R74 point 3: the word of a RAISE outside CHAIN. -/
theorem decode_encode_raise_outside {k : BitVec 4} (hk : 2 ≤ k.toNat) :
    decode (encode (.raise k)) = .error .positionOutOfRange := by
  have hout : positionInChain k = false := decide_eq_false (Nat.not_lt.mpr hk)
  simp [decode, encode, ofPosition, hout]

theorem raiseRequest_of_not_idle {p : Position} {s : State} (h : s.chain.dev p ≠ .idle) :
    raiseRequest p s = s := if_neg h

theorem dropRequest_of_not_pending {p : Position} {s : State} (h : s.chain.dev p ≠ .pending) :
    dropRequest p s = s := if_neg h

/-- Settles O30: the state left is the one found, with an idle device's request noted. -/
theorem raiseRequestTransaction : Obligations.RaiseRequest := fun p s =>
  ⟨decode_encode (i := .raise (BitVec.ofNat 4 p.val)) (positionInChain_position p),
    fun _ => decode_encode_raise_outside,
    fun hp => ⟨raiseRequest p s, exec_raise_position hp p, raiseRequest_frame p s,
      fun h => by simp [h], raiseRequest_of_not_idle, fun j hj => by simp [hj]⟩,
    exec_unconfigured (positionInChain_position p) nofun, fun hp => exec_failed hp _⟩

/-- Settles O31: the state left is the one found, with a pending device's request dropped. -/
theorem withdrawRequest : Obligations.WithdrawRequest := fun p s =>
  ⟨decode_encode (i := .withdraw (BitVec.ofNat 4 p.val)) (positionInChain_position p),
    fun hp => ⟨dropRequest p s, exec_withdraw_position hp p, dropRequest_frame p s,
      fun h => by simp [h], dropRequest_of_not_pending, fun j hj => by simp [hj]⟩,
    exec_unconfigured (positionInChain_position p) nofun, fun hp => exec_failed hp _⟩

/-- Settles O33: the selected device alone enters service; with none selected the default vector goes out. -/
theorem acknowledgeCycle : Obligations.AcknowledgeCycle := fun s =>
  ⟨decode_encode (i := .iack) rfl,
    fun hp k hsel => ⟨enterService k s, exec_iack_selected hp hsel, rfl, by simp, fun j hj => by simp [hj]⟩,
    exec_iack_none, inRunning_unconfigured, inRunning_failed⟩

/-- Settles O34: the least device in service alone goes idle; with none in service nothing moves. -/
theorem returnSequence : Obligations.ReturnSequence := fun s =>
  ⟨decode_encode (i := .reti) rfl,
    fun hp j hj hmin => ⟨leaveService j s, exec_reti_least hp hj hmin, rfl, by simp, fun i hi => by simp [hi]⟩,
    fun hp hnone => (exec_reti hp).trans (congrArg _ (endService_of_none hnone)),
    inRunning_unconfigured, inRunning_failed⟩

end Sys2Proof.Machine
end

section
/-! PROOF. The family of 43_control_ops.md: what RESET and POWERON answer in each phase (R170, R171), and that a
second RESET leaves what the first left (R173). -/

namespace Sys2Proof.Machine

/-! ### The host's transactions, where they are admitted -/

theorem exec_reset {s : State} (hp : s.phase = .running) : exec .reset s = .next (resetSequence s) :=
  inRunning_running hp

theorem admitPowerOn_unconfigured {i : Instr} {s : State} {body : Answer} (hp : s.phase = .unconfigured) :
    admitPowerOn i s body = body := by
  simp only [admitPowerOn, hp]

theorem admitPowerOn_running {i : Instr} {s : State} {body : Answer} (hp : s.phase = .running) :
    admitPowerOn i s body = .refused (.alreadyConfigured (encode i)) := by
  simp only [admitPowerOn, hp]

/-- R170: an image that covers the window is loaded, and the reset sequence follows. -/
theorem exec_poweron_of_covering {s : State} {img : List Byte} (hp : s.phase = .unconfigured)
    (himg : s.cfg.romImage = some img) (hlen : Config.windowBytes ≤ img.length) :
    exec .poweron s = .next (resetSequence (configure ⟨img, hlen⟩ s)) :=
  admitPowerOn_eq_next.mpr ⟨hp, powerOnSequence_eq_next.mpr ⟨img, hlen, himg, rfl⟩⟩

/-- R170: no image, or one shorter than the window. -/
theorem powerOnSequence_of_not_covering {s : State}
    (h : ∀ img, s.cfg.romImage = some img → img.length < Config.windowBytes) :
    powerOnSequence s = failConfiguration s := by
  unfold powerOnSequence
  split
  · rfl
  · next img himg => exact dif_neg (Nat.not_le.mpr (h img himg))

/-! ### The two transactions, phase by phase -/

/-- Settles O38: the state left is that of the reset sequence. -/
theorem resetTransaction : Obligations.ResetTransaction := fun _ =>
  ⟨decode_encode (i := .reset) rfl, exec_reset, Chain.dev_allIdle, inRunning_unconfigured, inRunning_failed⟩

/-- Settles O39: the loads and the reset sequence from an image that covers the window, the fault from any
other. -/
theorem powerOnTransaction : Obligations.PowerOnTransaction := by
  intro s
  refine ⟨decode_encode (i := .poweron) rfl, fun hp img himg hlen => ?_, fun hp hshort => ?_,
    admitPowerOn_running, admitPowerOn_failed⟩
  · have hexec := exec_poweron_of_covering hp himg hlen
    exact ⟨_, hexec, rfl, fun a => exec_ramByte hexec a, rfl⟩
  · exact (admitPowerOn_unconfigured hp).trans (powerOnSequence_of_not_covering hshort)

/-- Settles O42: the reset sequence writes constants, the event apart, and leaves the block running. -/
theorem resetIsIdempotent : Obligations.ResetIsIdempotent := fun s hp =>
  have hrunning : (resetSequence s).phase = .running := hp
  ⟨resetSequence s, exec_reset hp, exec_reset hrunning⟩

end Sys2Proof.Machine
end

section
/-! PROOF. The family of 60_exceptions.md: the one fault a transaction can end in and the state it leaves (R201,
R203), the refusals before POWERON (R202), and the order in which the causes of a stop are reported (R207). -/

namespace Sys2Proof.Machine

/-! ### Faults -/

theorem memWrite_ne_fault {w : Word} {a : Addr} {v : Byte} {s : State} (f : Fault) :
    memWrite w a v s ≠ .fault f := by
  unfold memWrite
  split
  · split <;> nofun
  · nofun

theorem admitPosition_ne_fault {i : Instr} {k : BitVec 4} {s : State} {body : Position → Answer} {f : Fault}
    (h : ∀ p f, body p ≠ .fault f) : admitPosition i k s body ≠ .fault f := by
  unfold admitPosition
  split
  · exact inRunning_ne_fault (h _)
  · split <;> nofun

theorem admitPowerOn_eq_fault {i : Instr} {s : State} {body : Answer} {f : Fault} :
    admitPowerOn i s body = .fault f ↔ s.phase = .unconfigured ∧ body = .fault f := by
  cases h : s.phase <;> simp [admitPowerOn, h]

/-- The one fault of R206, which R170 raises. -/
theorem powerOnSequence_eq_fault {s : State} {f : Fault} (h : powerOnSequence s = .fault f) :
    f = .configRomMissing (s.cfg.romImage.map List.length) (s.setPhase .failed) := by
  unfold powerOnSequence at h
  split at h
  · exact (Host.Outcome.fault.inj h).symm
  · split at h
    · cases h
    · exact (Host.Outcome.fault.inj h).symm

/-- R201, transaction by transaction: every other one is admitted to a meaning without a fault. -/
theorem exec_eq_fault {i : Instr} {s : State} {f : Fault} (h : exec i s = .fault f) :
    i = .poweron ∧ s.phase = .unconfigured ∧
      f = .configRomMissing (s.cfg.romImage.map List.length) (s.setPhase .failed) := by
  cases i with
  | poweron =>
    obtain ⟨hp, h⟩ := admitPowerOn_eq_fault.mp h
    exact ⟨rfl, hp, powerOnSequence_eq_fault h⟩
  | raise k | withdraw k =>
    simp only [exec, execRaise, execWithdraw] at h
    exact absurd h (admitPosition_ne_fault fun _ _ => nofun)
  | mwr a v => exact absurd h (inRunning_ne_fault memWrite_ne_fault)
  | iord p | iowr p v =>
    refine absurd h (inRunning_ne_fault fun f => ?_)
    split <;> nofun
  | _ => exact absurd h (inRunning_ne_fault nofun)

/-- A step that faults performed a transaction that does. -/
theorem step_eq_fault {s : State} {f : Fault} (h : step s = .fault f) :
    ∃ i ws, exec i (s.setInbox ws) = .fault f := by
  unfold step at h
  split at h
  · cases h
  · cases h
  · next i t htake =>
    obtain ⟨w, ws, -, -, -, rfl⟩ := takeWord_eq_perform.mp htake
    exact ⟨i, ws, h⟩

theorem Answer.isFault_iff {a : Answer} : a.isFault = true ↔ ∃ f, a = .fault f := by
  cases a <;> simp [Answer.isFault]

/-- Settles O49: the host's POWERON is the one transaction whose meaning can fault. -/
theorem onlyPowerOnFaults : Obligations.OnlyPowerOnFaults := by
  intro i s hfault
  obtain ⟨f, h⟩ := Answer.isFault_iff.mp hfault
  obtain ⟨rfl, hp, -⟩ := exec_eq_fault h
  exact ⟨rfl, rfl, hp⟩

/-- Settles O47: the fault carries the state found, in phase Failed. -/
theorem failedMachineRefusesEverything : Obligations.FailedMachineRefusesEverything := by
  intro s left n h
  obtain ⟨i, ws, he⟩ := step_eq_fault h
  obtain ⟨-, -, hf⟩ := exec_eq_fault he
  obtain ⟨-, rfl⟩ := Fault.configRomMissing.inj hf
  exact ⟨rfl, fun _ _ => step_of_failed rfl rfl⟩

/-! ### Refusals -/

/-- Settles O48: no transaction but POWERON is admitted there. -/
theorem unconfiguredRefusals : Obligations.UnconfiguredRefusals := fun _ _ hwf hp hi =>
  exec_unconfigured hwf hi hp

/-- Settles O10: the step itself decides up to the decoder, and then the admission of the transaction decoded, whose
word is the one taken (O8); the window write and the missing image stop inside an admitted meaning. -/
theorem checkOrder : Obligations.CheckOrder := by
  intro s w ws hin
  have perform : ∀ i, decode w = .ok i → step s = exec i (s.setInbox ws) ∧ encode i = w := fun i hd =>
    ⟨stepRunsDecodedTransaction s w ws i hin hd, encode_of_decode hd⟩
  refine ⟨fun hp => step_of_failed hp hin, fun hp e hd => step_of_illegal hp hin hd, fun hp i hd hi => ?_,
    fun hp hd => ?_, fun hp a v hd ha hw => ?_, fun hp hd hshort => ?_⟩
  · obtain ⟨hstep, rfl⟩ := perform i hd
    exact hstep.trans (exec_unconfigured (wellFormed_of_decode hd) hi hp)
  · obtain ⟨hstep, rfl⟩ := perform .poweron hd
    exact hstep.trans (admitPowerOn_running hp)
  · obtain ⟨hstep, rfl⟩ := perform (.mwr a v) hd
    exact hstep.trans (exec_mwr_unreachable (s := s.setInbox ws) hp hw ha v)
  · obtain ⟨hstep, -⟩ := perform .poweron hd
    exact ⟨_, hstep.trans ((admitPowerOn_unconfigured hp).trans (powerOnSequence_of_not_covering hshort))⟩

/-- Settles O11: each code is the constructor's own (R206). -/
theorem outcomeCodes : Obligations.OutcomeCodes := fun _ _ _ => ⟨rfl, rfl, rfl, rfl, rfl, rfl⟩

end Sys2Proof.Machine
end

section
/-! PROOF. The family of 70_reset_and_hazards.md: the state POWERON leaves and what holds of it (R230), RESET during a
service (R238), the boot fetch and the overlay (R231), the bank-select write (R234), and how long a service lasts
(R236). -/

namespace Sys2Proof.Machine

/-! ### Runs without a kind of transaction -/

/-- What every admitted transaction outside `p` keeps of a running block is kept by every run in which no word is one
of `p`. -/
theorem runSteps_keeps {p : Instr → Bool} {P : State → Prop} (take : ∀ s ws, P s → P (s.setInbox ws))
    (perform : ∀ i s t, s.phase = .running → p i = false → exec i s = .next t → P s → P t)
    {n : Nat} {s t : State} (hp : s.phase = .running) (h : runSteps n s = .next t)
    (hws : ∀ w ∈ s.inbox.take n, isWordOf p w = false) (hs : P s) : P t := by
  refine runSteps_induction (P := fun s t ws => s.phase = .running →
    (∀ w ∈ ws, isWordOf p w = false) → P s → P t) (fun s _ _ hs => hs) ?_ h hp hws hs
  intro s w ws i u t l _ hd he ih hp hws hs
  obtain ⟨hw, hl⟩ := List.forall_mem_cons.mp hws
  have hi : p i = false := by simpa only [isWordOf, hd] using hw
  have hp' : (s.setInbox ws).phase = .running := hp
  obtain ⟨hpu, -⟩ := exec_running_frame hp' he
  exact ih hpu hl (perform i _ u hp' hi he (take s ws hs))

/-! ### Services -/

/-- R236, of one transaction of the chain, under either policy: RAISE finds the device not idle, WITHDRAW and IACK find
it not pending. -/
theorem ChainMove.keeps_inService {i : Instr} {s t : State} (h : ChainMove i s t) (hreti : i ≠ .reti)
    {k : Position} (hk : s.chain.dev k = .inService) : t.chain.dev k = .inService := by
  rcases h with ⟨-, p, -, rfl⟩ | ⟨-, p, -, rfl⟩ | ⟨-, rfl⟩ | ⟨hi, -⟩
  · rw [raiseRequest_dev, if_neg, hk]
    rintro ⟨rfl, hidle⟩
    simp [hk] at hidle
  · rw [dropRequest_dev, if_neg, hk]
    rintro ⟨rfl, hpend⟩
    simp [hk] at hpend
  · rcases acknowledge_cases s with ⟨j, hsel, -, -⟩ | ⟨hnone, -⟩
    · rw [acknowledge_of_ackSelect_some hsel, enterService_dev, hk, ite_self]
    · rw [acknowledge_of_ackSelect_none hnone]
      exact hk
  · exact absurd hi hreti

/-- R236, of one transaction: RETI and RESET alone end a service. -/
theorem exec_keeps_inService {i : Instr} {s t : State} (hp : s.phase = .running)
    (hi : endsServices i = false) (h : exec i s = .next t) {k : Position}
    (hk : s.chain.dev k = .inService) : t.chain.dev k = .inService := by
  have hreti : i ≠ .reti := by rintro rfl; cases hi
  rcases exec_frame h with ⟨-, hpow, -⟩ |
    ⟨-, ⟨rfl, -⟩ | ⟨a, v, -, rfl⟩ | ⟨-, b, rfl⟩ | hc | ⟨es, n, rfl⟩⟩
  · exact absurd hpow (ne_poweron_of_running hp h)
  · cases hi
  · exact hk
  · exact hk
  · exact hc.keeps_inService hreti hk
  · exact hk

/-- Settles O37: the device is in service still, so the line is high (R31) and nothing is selected (R143). -/
theorem serviceBlocksAcknowledges : Obligations.ServiceBlocksAcknowledges := by
  intro n s t k hp hpol hk h hws
  have hkt : t.chain.dev k = .inService :=
    runSteps_keeps (P := fun s => s.chain.dev k = .inService) (fun _ _ hs => hs)
      (fun _ _ _ hp hi he hs => exec_keeps_inService hp hi he hs) hp h hws hk
  obtain ⟨hpt, -, -, hcfg⟩ := romImagesNeverChange n s t hp h
  have hnone : ackSelect t = none := ackSelect_eq_none_of_inService (hcfg ▸ hpol) hkt
  exact ⟨hkt, intLine_eq_true_of_not_idle (k := k) (by simp [hkt]), hcfg ▸ exec_iack_none hpt hnone⟩

/-! ### The overlay -/

/-- R53: under the overlay both reads of a window address return the ROM byte. -/
theorem read_overlay {s : State} (hp : s.phase = .running) (hsel : s.readSelector = 0#1) {a : Addr}
    (ha : a ≤ 0x07FF#16) :
    ∃ v, s.rom.bytes[a.toNat]? = some v ∧ exec (.mrd a) s = .next (s.emit [.rdata v]) ∧
      exec (.mfetch a) s = .next (s.emit [.rdata v]) := by
  obtain ⟨hrom, -, -⟩ := readsAs_memRead s a
  exact ⟨memRead s a, hrom ha hsel, exec_mrd hp rfl, exec_mfetch hp rfl⟩

/-- Bit 0 of the byte is the selector it becomes (R124). -/
theorem extractLsb'_eq_ofBool (d : Byte) : d.extractLsb' 0 1 = BitVec.ofBool (d.getLsbD 0) := by
  apply BitVec.eq_of_getLsbD_eq
  intro i hi
  obtain rfl : i = 0 := by omega
  simp

theorem selectorAfter_of_not_turnsOverlayOff {i : Instr} (hi : turnsOverlayOff i = false) :
    selectorAfter 0#1 i = 0#1 := by
  cases i with
  | iowr p d =>
    simp only [selectorAfter]
    split
    · next hbank =>
      have hbit : d.getLsbD 0 = false := by simpa [turnsOverlayOff, hbank] using hi
      exact (extractLsb'_eq_ofBool d).trans (congrArg BitVec.ofBool hbit)
    · rfl
  | _ => rfl

/-- Settles O45: `read_selector` is 0 along the run, and the ROM image is the one it began with (R60). -/
theorem overlayStaysOnUntilTurnedOff : Obligations.OverlayStaysOnUntilTurnedOff := by
  intro n s t a hp hsel h hws ha
  have hselt : t.readSelector = 0#1 :=
    runSteps_keeps (P := fun s => s.readSelector = 0#1) (fun _ _ hs => hs)
      (fun _ _ _ _ hi he hs => by
        rw [exec_readSelector he, hs, selectorAfter_of_not_turnsOverlayOff hi]) hp h hws hsel
  obtain ⟨hpt, hrom, -, -⟩ := romImagesNeverChange n s t hp h
  exact hrom ▸ read_overlay hpt hselt ha

/-- Settles O25: the selector left is bit 0 of the byte, and R53's row for it gives the byte read. -/
theorem selectorWriteTakesEffectAtOnce : Obligations.SelectorWriteTakesEffectAtOnce := by
  intro hi d v a s hp
  have hbank : (hi ++ 0x1A#8 : Addr).extractLsb' 0 8 = Config.bankSelectPort := extractLsb'_append_port hi _
  refine ⟨_, exec_iowr_bankSelect hp hbank d, rfl, fun ha hbit hv => ?_, fun ha hbit => ?_⟩
  · have hsel : d.extractLsb' 0 1 = 0#1 :=
      (extractLsb'_eq_ofBool d).trans (congrArg BitVec.ofBool hbit)
    obtain ⟨v', hv', hread, -⟩ := read_overlay (s := s.setReadSelector (d.extractLsb' 0 1)) hp hsel ha
    obtain rfl : v' = v := Option.some.inj (hv'.symm.trans hv)
    exact hread
  · have hsel : d.extractLsb' 0 1 = 1#1 :=
      (extractLsb'_eq_ofBool d).trans (congrArg BitVec.ofBool hbit)
    obtain ⟨-, hram, -⟩ := readsAs_memRead (s.setReadSelector (d.extractLsb' 0 1)) a
    exact exec_mrd hp (hram ha hsel)

/-! ### Power-on and reset -/

/-- Both entry points run the reset sequence of R171, of a running block. -/
theorem exec_resets {i : Instr} {s t : State} (hi : i = .reset ∨ i = .poweron) (h : exec i s = .next t) :
    t.phase = .running ∧ t.readSelector = 0#1 := by
  rcases hi with rfl | rfl
  · obtain ⟨hp, hbody⟩ := inRunning_eq_next.mp h
    cases hbody
    exact ⟨hp, rfl⟩
  · obtain ⟨-, hbody⟩ := admitPowerOn_eq_next.mp h
    obtain ⟨img, hlen, -, rfl⟩ := powerOnSequence_eq_next.mp hbody
    exact ⟨rfl, rfl⟩

/-- Settles O44: the reset sequence turns the overlay on, and `BOOT_VECTOR` carries the proof that it is under it. -/
theorem bootFetchReadsRom : Obligations.BootFetchReadsRom := by
  intro s t i hi h
  obtain ⟨hp, hsel⟩ := exec_resets hi h
  have hwin : t.cfg.bootVector.addr ≤ 0x07FF#16 := t.cfg.bootVector.inWindow
  obtain ⟨v, hv, -, hfetch⟩ := read_overlay hp hsel hwin
  exact ⟨hwin, v, hv, hfetch⟩

/-- Settles O41: POWERON writes what R41 gives no value, and the other fields are those of `State.reset` before its
`cpu_reset`. -/
theorem powerOnLeavesResetState : Obligations.PowerOnLeavesResetState := by
  intro s hp hcfg hev hin hdr
  have himg : s.cfg.romImage = some RomImage.ofReset.bytes := congrArg Params.romImage hcfg
  rw [exec_poweron_of_covering hp himg RomImage.ofReset.covers]
  exact congrArg Host.Outcome.next
    (resetSequence_configure_congr (s' := { State.reset with events := [] }) _ hcfg hev hin hdr)

/-- R32, R146: under either policy a device that presents is pending. -/
theorem presenter_eq_none_of_idle {s : State} (h : ∀ k : Position, s.chain.dev k = .idle) :
    presenter s = none := by
  refine Option.eq_none_iff_forall_ne_some.mpr fun k hk => ?_
  have hpend := presenter_pending hk
  simp [h k] at hpend

/-- Settles O43: the reset sequence makes every device idle and leaves RAM alone. -/
theorem resetKeepsRamEndsServices : Obligations.ResetKeepsRamEndsServices := fun s hp =>
  have hidle : ∀ k : Position, (resetSequence s).chain.dev k = .idle := Chain.dev_allIdle
  ⟨resetSequence s, exec_reset hp, fun _ => rfl, hidle, intLine_eq_false_iff.mpr hidle,
    presenter_eq_none_of_idle hidle⟩

/-- Settles O40: the request line and the presenter follow from every device being idle. -/
theorem resetStateValues : Obligations.ResetStateValues :=
  have hidle : ∀ k : Position, State.reset.chain.dev k = .idle := Chain.dev_allIdle
  ⟨rfl, rfl, rfl, fun a => Memory.read_nil a.toNat, hidle, intLine_eq_false_iff.mpr hidle,
    presenter_eq_none_of_idle hidle, rfl⟩

/-- Settles O58: no RAM byte is listed and every device is idle, so no two are in service and no service is
under way. -/
theorem invariantsAtReset : Obligations.InvariantsAtReset := by
  have hidle : ∀ k : Position, State.reset.chain.dev k = .idle := Chain.dev_allIdle
  refine ⟨fun _ => Memory.wf_nil, fun _ => rfl, fun _ _ j _ hj _ => ?_, fun _ => ?_⟩
  · simp [hidle j] at hj
  · have hnone : servicedDevices State.reset.chain = [] := by simp [servicedDevices, hidle]
    exact hnone.symm

end Sys2Proof.Machine
end
